-- ==== Sys2Proof/Word.lean ====
section
/-! DEFINITION. The bit-vector types of the command port and of the byte streams: operand and result words (R84, R86),
bytes (R56), and one command transaction as the port's framing delivers it (R80). -/

namespace Sys2Proof

/-- One byte of a stream (R56). -/
abbrev Byte := BitVec 8

/-- A 64-bit word: an operand word (R84), a result word (R86), a hop record (R10) or a ring slot (R27). -/
abbrev Word := BitVec 64

/-- R80: one transaction on the command port, the 32-bit command word and the ordered list of operand words that the
framing delivers with it as one unit. The list's length is the operand count the framing delivers. -/
structure Command where
  word     : BitVec 32
  operands : List Word
  deriving DecidableEq, Repr

end Sys2Proof
end

