-- ==== Sys2Proof/Config.lean ====
section
/-! DEFINITION. What an implementation of the HRC fixes: its identity (R1), the ring capacity (R9) and the one open
parameter `P_HOP_LAYOUT` (R13). Nothing in the spec is a free value, so this file declares no opaque constant. -/

namespace Sys2Proof

/-- R1: the identity string. -/
def identity : String := "HRC-CFC_NS3-v7"

/-- R9: `MAX_HOP`, the number of ring slots. -/
abbrev maxHop : Nat := 5

/-- R13: the values of the model parameter `P_HOP_LAYOUT`. -/
inductive HopLayout where
  /-- The default: time, bytes, queue length and rate, packed from bit 0 upward. -/
  | docOrder
  /-- The rate code at bits 2:0, then time, bytes and queue length. -/
  | rateLow
  deriving DecidableEq, Repr

/-- The parameters of one HRC instance. They are carried by `State` and no step changes them.
DESIGN CHOICE, safe (assumption 1). -/
structure Params where
  hopLayout : HopLayout
  deriving DecidableEq, Repr

/-- R13: `DOC_ORDER` is the default value of `P_HOP_LAYOUT`. -/
def Params.default : Params := { hopLayout := .docOrder }

end Sys2Proof
end

