-- ==== Sys2Proof/Machine/State.lean ====
section
/-! DEFINITION. The state of the HRC (R20), the command index (R33), and the two ends of the command port as the model
holds them: the host's pending actions (R65) and the responses given so far (R86, R264). Plain data throughout. -/

namespace Sys2Proof.Machine

/-- R21: the five values `MODE` may hold. The reserved encodings 5 to 7 are never held, so they have no constructor.
DEDUCED, safe (assumption 5). -/
inductive Mode where
  | disabled
  | normal
  | timestamp
  | compressedPower
  | portTrace
  deriving DecidableEq, Repr

/-- R22: the two values `PWIDTH` may hold, 1 and 2 bytes. The encodings 0 and 3 are never held. DEDUCED, safe
(assumption 5). -/
inductive PowerWidth where
  | oneByte
  | twoBytes
  deriving DecidableEq, Repr

/-- R220: the status of a response. -/
inductive Status where
  | ok
  | errIllegal
  | errSlot
  | errCfg
  | errRate
  deriving DecidableEq, Repr

/-- R86: a response, its status and its result words in order. -/
structure Response where
  status  : Status
  results : List Word
  deriving DecidableEq, Repr

/-- R65: one interaction of the host with the HRC. -/
inductive HostAction where
  /-- The host sends one command transaction. -/
  | issue (c : Command)
  /-- The host appends bytes to the end of `INQ`. -/
  | fill (bytes : List Byte)
  /-- The host removes the given number of bytes from the front of `OUTQ`. -/
  | drain (count : Nat)
  /-- The host asserts reset. -/
  | reset
  deriving DecidableEq, Repr

/-- Why a step stops. The same type is the content of the register `FAULT` (R31). -/
inductive Fault where
  /-- R226, R228. DESERIALIZE puts it into the register `FAULT` when `INQ` holds too few bytes, in a next state. A step
  stops with it when the host issues a command while `FAULT` holds it: the HRC is stuck and takes no command. Safe: the
  spec says the issue of a command then has no step. -/
  | cursorUnderrun
  deriving DecidableEq, Repr

/-- Why a step has no meaning. No meaning of this model raises one. -/
inductive Refusal where
  /-- Raised only by an arm of `exec` for a command that has no meaning yet; this model has no such arm. Safe. -/
  | notModelled (mnemonic : String)
  deriving DecidableEq, Repr

/-- R20: the state, with `CI` (R33), the parameters (R13) and the two ends of the command port. `RATE[0..7]` is a
read-only constant (R24) and is `Sys2Proof.Machine.rateOf`. -/
structure State where
  /-- The parameters of this instance, not state of the HRC: no step changes them. DESIGN CHOICE, safe (assumption 1). -/
  params : Params
  /-- `MODE` (R21). -/
  mode : Mode
  /-- `PWIDTH` (R22). -/
  pwidth : PowerWidth
  /-- `MULTI` (R23). -/
  multi : BitVec 32
  /-- `SLOT[0..4]` (R27). -/
  slots : Vector Word maxHop
  /-- `NHOP` (R29). -/
  nhop : BitVec 16
  /-- `FAULT` (R31); `none` is the spec's "none". -/
  fault : Option Fault
  /-- `INQ` (R32), front first. -/
  inq : List Byte
  /-- `OUTQ` (R32), front first. -/
  outq : List Byte
  /-- `CI` (R33). -/
  ci : Nat
  /-- The responses since reset, oldest first: what the host has been told (R86, R264). DESIGN CHOICE, safe
  (assumption 3). -/
  responses : List Response
  /-- The host's actions still to come, next first (R33, R65). DESIGN CHOICE, unsafe only for fills and drains of
  a faulted HRC (assumption 2). -/
  host : List HostAction
  deriving DecidableEq, Repr

/-- R250: the machine right after reset, with the default parameters (R13) and no host action pending. -/
def State.reset : State where
  params := Params.default
  mode := .disabled
  pwidth := .twoBytes
  multi := 1
  slots := Vector.replicate maxHop 0
  nhop := 0
  fault := none
  inq := []
  outq := []
  ci := 0
  responses := []
  host := []

end Sys2Proof.Machine
end

