-- ==== Sys2Proof/Machine/Ops.lean ====
section
/-! DEFINITION. The named operations on the state: taking a command, raising the fault, leaving it by reset, the stream
primitives, and the storage's views. Every meaning is written over these. -/

namespace Sys2Proof.Machine

/-! ### Taking a command, the fault, and reset -/

/-- R228 and R65: a command is taken only while `FAULT` is none; then it has its whole effect at once (R59). While the HRC
is stuck the issue of a command has no step, which is the outcome `fault`. DEDUCED, safe (assumption 10). -/
def takeCommand (s : State) (effect : State → State) : Host.Outcome State Fault Refusal :=
  match s.fault with
  | none => .next (effect s)
  | some f => .fault f

/-- R86, R33: a completed command gives its response, and `CI` advances by 1. -/
def respond (s : State) (r : Response) : State :=
  { s with ci := s.ci + 1, responses := s.responses ++ [r] }

/-- R225: `raise F` sets `FAULT` and ends the command. There is no response and `CI` stays. -/
def raiseFault (s : State) (f : Fault) : State := { s with fault := some f }

/-- R250, R251: reset, the one way out of the fault state. The parameters and what the host will do next are not state of
the HRC and stay; the responses are cleared with `CI`. DESIGN CHOICE, safe (assumptions 1, 2 and 3). -/
def resetBy (s : State) : State := { State.reset with params := s.params, host := s.host }

/-! ### Stream primitives -/

/-- R57: the low `n` bytes of a value, least significant first. -/
def leBytes : Nat → Nat → List Byte
  | 0, _ => []
  | n + 1, v => BitVec.ofNat 8 v :: leBytes n (v / 256)

/-- R57: the value of a byte sequence whose first byte is least significant. -/
def leValue : List Byte → Nat
  | [] => 0
  | b :: bs => b.toNat + 256 * leValue bs

/-- R16, R56: `OutWrite(n, v)` on the queue `q`. -/
def outWrite (n : Nat) (v : Nat) (q : List Byte) : List Byte := q ++ leBytes n v

/-- R16, R56: `InRead(n)` on the queue `q`, the value and the rest of the queue. The one caller, DESERIALIZE, has checked
beforehand that the queue is long enough (R59), so the primitive's own underrun cannot arise. DEDUCED, safe
(assumption 10). -/
def inRead (n : Nat) (q : List Byte) : Nat × List Byte := (leValue (q.take n), q.drop n)

/-! ### The header storage and its views -/

/-- R30: the ring position the next push writes. -/
def pushIndex (s : State) : Nat := s.nhop.toNat % maxHop

theorem pushIndex_lt (s : State) : pushIndex s < maxHop := Nat.mod_lt _ (by decide)

/-- R172: write the slot at `NHOP mod 5`, then increment `NHOP` modulo 2^16. -/
def pushSlot (s : State) (x : Word) : State :=
  { s with slots := s.slots.set (pushIndex s) x (pushIndex_lt s), nhop := s.nhop + 1 }

/-- R52: the timestamp view, all of `SLOT[0]`. -/
def timestampValue (s : State) : Word := s.slots[0]

/-- R52: writing the timestamp writes `SLOT[0]` and nothing else. -/
def setTimestamp (s : State) (v : Word) : State := { s with slots := s.slots.set 0 v }

/-- R53: the power view of a slot, its low `PWIDTH` bytes zero-extended to 64 bits. -/
def powerBits (w : PowerWidth) (x : Word) : Word :=
  match w with
  | .oneByte => (x.extractLsb' 0 8).setWidth 64
  | .twoBytes => (x.extractLsb' 0 16).setWidth 64

/-- R53: a slot with its low `PWIDTH` bytes replaced by those of `v` and every other bit kept. -/
def withPowerBits (w : PowerWidth) (x v : Word) : Word :=
  match w with
  | .oneByte => (x.extractLsb' 8 56 ++ v.extractLsb' 0 8 : BitVec (56 + 8))
  | .twoBytes => (x.extractLsb' 16 48 ++ v.extractLsb' 0 16 : BitVec (48 + 16))

/-- R53: the power value. -/
def powerValue (s : State) : Word := powerBits s.pwidth s.slots[0]

/-- R53: writing the power value. -/
def setPowerValue (s : State) (v : Word) : State :=
  { s with slots := s.slots.set 0 (withPowerBits s.pwidth s.slots[0] v) }

/-- R170: every slot 0 and `NHOP` 0. -/
def clearHeader (s : State) : State := { s with slots := Vector.replicate maxHop 0, nhop := 0 }

end Sys2Proof.Machine
end

