-- ==== Sys2Proof/Machine/Flags.lean ====
section
/-! DEFINITION. The HRC has no flags and no condition codes (R34). What stands in their place is the status code of each
response (R220), computed here, with the response's shape on success and on error (R86). -/

namespace Sys2Proof.Machine

/-- R220: the 8-bit status code. -/
def statusCode : Status → BitVec 8
  | .ok => 0x00
  | .errIllegal => 0x01
  | .errSlot => 0x02
  | .errCfg => 0x03
  | .errRate => 0x04

/-- R86: complete with `OK` and the result words the command's rule returns. -/
def answerOk (s : State) (results : List Word) : State := respond s { status := .ok, results := results }

/-- R86: complete with an error status. The response carries the command's `m` result words, each 0. -/
def answerError (s : State) (e : Status) (m : Nat) : State :=
  respond s { status := e, results := List.replicate m 0 }

/-- R221: complete an illegal command, with no result words. -/
def answerIllegal (s : State) : State := respond s { status := .errIllegal, results := [] }

end Sys2Proof.Machine
end

