-- ==== Sys2Proof/Machine/Operands.lean ====
section
/-! DEFINITION. Every operand form: how a command's operand words become the values its rule works on (R84, R89), by a
legality check, by truncation, or whole; and how a register is zero-extended into a result word. -/

namespace Sys2Proof.Machine

/-- R21: the encoding of a mode. -/
def modeCode : Mode → BitVec 3
  | .disabled => 0
  | .normal => 1
  | .timestamp => 2
  | .compressedPower => 3
  | .portTrace => 4

/-- R121: the mode an operand names, `none` above 4. Nothing truncates the operand. -/
def modeOfOperand? (a : Word) : Option Mode :=
  match a.toNat with
  | 0 => some .disabled
  | 1 => some .normal
  | 2 => some .timestamp
  | 3 => some .compressedPower
  | 4 => some .portTrace
  | _ => none

/-- R22: the encoding of a power width, which is also its number of bytes. -/
def pwidthCode : PowerWidth → BitVec 2
  | .oneByte => 1
  | .twoBytes => 2

/-- R123: the power width an operand names, `none` but for 1 and 2. -/
def pwidthOfOperand? (a : Word) : Option PowerWidth :=
  match a.toNat with
  | 1 => some .oneByte
  | 2 => some .twoBytes
  | _ => none

/-- R125: the multiplier an operand names, `none` for 0 and for 2^32 or more. -/
def multiOfOperand? (a : Word) : Option (BitVec 32) :=
  if a.toNat = 0 ∨ 2 ^ 32 ≤ a.toNat then none else some (a.extractLsb' 0 32)

/-- R89: READ_SLOT's slot index as a number. -/
def slotIndex (i : BitVec 3) : Nat := i.toNat

/-- R120: `MODE` as a result word. -/
def modeWord (m : Mode) : Word := (modeCode m).setWidth 64

/-- R122: `PWIDTH` as a result word. -/
def pwidthWord (w : PowerWidth) : Word := (pwidthCode w).setWidth 64

/-- R124: `MULTI` as a result word. -/
def multiWord (m : BitVec 32) : Word := m.setWidth 64

/-- R173: `NHOP` as a result word. -/
def nhopWord (n : BitVec 16) : Word := n.setWidth 64

end Sys2Proof.Machine
end

