-- ==== Sys2Proof/Machine/Record.lean ====
section
/-! DEFINITION. The hop record: the line-rate table (R24), the rate-to-code mapping (R140), the quantizers (R141), the two
record layouts (R92, R93) and the encoding of one sample. -/

namespace Sys2Proof.Machine

/-- R24: `RATE[0..7]`, bits per second. Codes 5 to 7 are reserved and hold 0. A constant and no field
of the state. DEDUCED, safe (assumption 5). -/
def rateOf (c : BitVec 3) : Word :=
  match c.toNat with
  | 0 => 25000000000
  | 1 => 50000000000
  | 2 => 100000000000
  | 3 => 200000000000
  | 4 => 400000000000
  | _ => 0

/-- R140: the code of a rate, by exact match against the five known rates. -/
def codeOf (r : Word) : Option (BitVec 3) :=
  if r = 25000000000 then some 0
  else if r = 50000000000 then some 1
  else if r = 100000000000 then some 2
  else if r = 200000000000 then some 3
  else if r = 400000000000 then some 4
  else none

/-- R12: `BYTE_UNIT`. -/
def byteUnit : Nat := 128

/-- R12: `QLEN_UNIT`. -/
def qlenUnit : Nat := 80

/-- R141: time is stored unscaled, truncated to 24 bits. -/
def qTime (t : Word) : BitVec 24 := t.setWidth 24

/-- R141: the byte count divided by `BYTE_UNIT * MULTI`, truncated to 20 bits. `MULTI` is never 0 (R23); where a state
nevertheless has 0 there, the quotient is 0. DESIGN CHOICE, safe (assumption 6). -/
def qBytes (multi : BitVec 32) (b : Word) : BitVec 20 := BitVec.ofNat 20 (b.toNat / (byteUnit * multi.toNat))

/-- R141: the queue length divided by `QLEN_UNIT * MULTI`, truncated to 17 bits. -/
def qQlen (multi : BitVec 32) (q : Word) : BitVec 17 := BitVec.ofNat 17 (q.toNat / (qlenUnit * multi.toNat))

/-- R92: the record with the given fields. -/
def pack (lay : HopLayout) (t : BitVec 24) (b : BitVec 20) (q : BitVec 17) (r : BitVec 3) : Word :=
  match lay with
  | .docOrder => (r ++ q ++ b ++ t : BitVec (3 + 17 + 20 + 24))
  | .rateLow => (q ++ b ++ t ++ r : BitVec (17 + 20 + 24 + 3))

/-- R93: the time field. -/
def fTime (lay : HopLayout) (x : Word) : BitVec 24 :=
  match lay with
  | .docOrder => x.extractLsb' 0 24
  | .rateLow => x.extractLsb' 3 24

/-- R93: the byte-count field. -/
def fBytes (lay : HopLayout) (x : Word) : BitVec 20 :=
  match lay with
  | .docOrder => x.extractLsb' 24 20
  | .rateLow => x.extractLsb' 27 20

/-- R93: the queue-length field. -/
def fQlen (lay : HopLayout) (x : Word) : BitVec 17 :=
  match lay with
  | .docOrder => x.extractLsb' 44 17
  | .rateLow => x.extractLsb' 47 17

/-- R93: the rate code. -/
def fRate (lay : HopLayout) (x : Word) : BitVec 3 :=
  match lay with
  | .docOrder => x.extractLsb' 61 3
  | .rateLow => x.extractLsb' 0 3

/-- R142, R172: the Normal-form record of one sample under the current `MULTI`, `none` when the rate has no code. -/
def encodeNormal? (s : State) (time bytes qlen rate : Word) : Option Word :=
  (codeOf rate).map fun c =>
    pack s.params.hopLayout (qTime time) (qBytes s.multi bytes) (qQlen s.multi qlen) c

/-- R145: a number of quantized byte units in bytes, under the current `MULTI`. -/
def scaleBytes (multi : BitVec 32) (units : Nat) : Word := BitVec.ofNat 64 (units * byteUnit * multi.toNat)

/-- R146: a number of quantized queue units in bytes, under the current `MULTI`. -/
def scaleQlen (multi : BitVec 32) (units : Nat) : Word := BitVec.ofNat 64 (units * qlenUnit * multi.toNat)

/-- R149, R150: the advance of a counter modulo `2^width` from `b` to `a`. -/
def wrapDelta (width a b : Nat) : Nat := if b ≤ a then a - b else a + 2 ^ width - b

end Sys2Proof.Machine
end

