-- ==== Sys2Proof/Machine/Codec.lean ====
section
/-! DEFINITION. The hop-record codec commands, R142 to R150. None of them reads `MODE` (R153). -/

namespace Sys2Proof.Machine

/-- R142: ENC_NORMAL. A rate with no code gives `ERR_RATE` and the result word 0. -/
def execEncNormal (time bytes qlen rate : Word) (s : State) : Host.Outcome State Fault Refusal :=
  takeCommand s fun s =>
    match encodeNormal? s time bytes qlen rate with
    | some x => answerOk s [x]
    | none => answerError s .errRate 1

/-- R143: ENC_PORT, the port verbatim. -/
def execEncPort (port : Word) (s : State) : Host.Outcome State Fault Refusal :=
  takeCommand s fun s => answerOk s [port]

/-- R144: DEC_TIME. -/
def execDecTime (x : Word) (s : State) : Host.Outcome State Fault Refusal :=
  takeCommand s fun s => answerOk s [(fTime s.params.hopLayout x).setWidth 64]

/-- R145: DEC_BYTES. -/
def execDecBytes (x : Word) (s : State) : Host.Outcome State Fault Refusal :=
  takeCommand s fun s => answerOk s [scaleBytes s.multi (fBytes s.params.hopLayout x).toNat]

/-- R146: DEC_QLEN. -/
def execDecQlen (x : Word) (s : State) : Host.Outcome State Fault Refusal :=
  takeCommand s fun s => answerOk s [scaleQlen s.multi (fQlen s.params.hopLayout x).toNat]

/-- R147: DEC_RATE. A reserved code gives 0. -/
def execDecRate (x : Word) (s : State) : Host.Outcome State Fault Refusal :=
  takeCommand s fun s => answerOk s [rateOf (fRate s.params.hopLayout x)]

/-- R148: DEC_PORT, the inverse of ENC_PORT. -/
def execDecPort (x : Word) (s : State) : Host.Outcome State Fault Refusal :=
  takeCommand s fun s => answerOk s [x]

/-- R149: BYTES_DELTA, from the earlier record `b` to the later record `a`. -/
def execBytesDelta (a b : Word) (s : State) : Host.Outcome State Fault Refusal :=
  takeCommand s fun s =>
    answerOk s [scaleBytes s.multi
      (wrapDelta 20 (fBytes s.params.hopLayout a).toNat (fBytes s.params.hopLayout b).toNat)]

/-- R150: TIME_DELTA, from the earlier record `b` to the later record `a`. The unit is 1. -/
def execTimeDelta (a b : Word) (s : State) : Host.Outcome State Fault Refusal :=
  takeCommand s fun s =>
    answerOk s [BitVec.ofNat 64
      (wrapDelta 24 (fTime s.params.hopLayout a).toNat (fTime s.params.hopLayout b).toNat)]

end Sys2Proof.Machine
end

