-- ==== Sys2Proof/Machine/Configuration.lean ====
section
/-! DEFINITION. The configuration commands, R120 to R126. -/

namespace Sys2Proof.Machine

/-- R120: GET_MODE. -/
def execGetMode (s : State) : Host.Outcome State Fault Refusal :=
  takeCommand s fun s => answerOk s [modeWord s.mode]

/-- R121: SET_MODE. An operand above 4 is refused with `ERR_CFG`. -/
def execSetMode (a : Word) (s : State) : Host.Outcome State Fault Refusal :=
  takeCommand s fun s =>
    match modeOfOperand? a with
    | some m => answerOk { s with mode := m } []
    | none => answerError s .errCfg 0

/-- R122: GET_PWIDTH. -/
def execGetPwidth (s : State) : Host.Outcome State Fault Refusal :=
  takeCommand s fun s => answerOk s [pwidthWord s.pwidth]

/-- R123: SET_PWIDTH. An operand other than 1 or 2 is refused with `ERR_CFG`. -/
def execSetPwidth (a : Word) (s : State) : Host.Outcome State Fault Refusal :=
  takeCommand s fun s =>
    match pwidthOfOperand? a with
    | some w => answerOk { s with pwidth := w } []
    | none => answerError s .errCfg 0

/-- R124: GET_MULTI. -/
def execGetMulti (s : State) : Host.Outcome State Fault Refusal :=
  takeCommand s fun s => answerOk s [multiWord s.multi]

/-- R125: SET_MULTI. An operand of 0, or of 2^32 or more, is refused with `ERR_CFG`. -/
def execSetMulti (a : Word) (s : State) : Host.Outcome State Fault Refusal :=
  takeCommand s fun s =>
    match multiOfOperand? a with
    | some m => answerOk { s with multi := m } []
    | none => answerError s .errCfg 0

/-- R126: RATE_OF. A code of 8 or more gives 0. -/
def execRateOf (a : Word) (s : State) : Host.Outcome State Fault Refusal :=
  takeCommand s fun s => answerOk s [if a.toNat < 8 then rateOf (a.extractLsb' 0 3) else 0]

end Sys2Proof.Machine
end

