-- ==== Sys2Proof/Machine/Header.lean ====
section
/-! DEFINITION. The header and ring commands, R170 to R178. The accessors of a payload are mode-gated: in the wrong mode a
getter gives 0 and a setter does nothing, with status `OK` (R229). -/

namespace Sys2Proof.Machine

/-- R171: `staticSize()`, the header's wire size in bytes under the current mode. -/
def wireSize (s : State) : Nat :=
  match s.mode with
  | .disabled => 0
  | .normal | .portTrace => maxHop * 8 + 2
  | .timestamp => 8
  | .compressedPower => (pwidthCode s.pwidth).toNat

/-- R170: HDR_CLEAR. -/
def execHdrClear (s : State) : Host.Outcome State Fault Refusal :=
  takeCommand s fun s => answerOk (clearHeader s) []

/-- R171: STATIC_SIZE. -/
def execStaticSize (s : State) : Host.Outcome State Fault Refusal :=
  takeCommand s fun s => answerOk s [BitVec.ofNat 64 (wireSize s)]

/-- R172: PUSH_HOP. A full record in Normal mode, the port alone in PortTrace mode, and nothing in every other mode. -/
def execPushHop (time bytes qlen rate port : Word) (s : State) : Host.Outcome State Fault Refusal :=
  takeCommand s fun s =>
    match s.mode with
    | .normal =>
      match encodeNormal? s time bytes qlen rate with
      | some x => answerOk (pushSlot s x) []
      | none => answerError s .errRate 0
    | .portTrace => answerOk (pushSlot s port) []
    | .disabled | .timestamp | .compressedPower => answerOk s []

/-- R173: GET_NHOP, in every mode. -/
def execGetNhop (s : State) : Host.Outcome State Fault Refusal :=
  takeCommand s fun s => answerOk s [nhopWord s.nhop]

/-- R174: READ_SLOT, in every mode. Slot indices 5 to 7 give `ERR_SLOT` and the result word 0. -/
def execReadSlot (i : BitVec 3) (s : State) : Host.Outcome State Fault Refusal :=
  takeCommand s fun s =>
    if h : slotIndex i < maxHop then answerOk s [s.slots[slotIndex i]] else answerError s .errSlot 1

/-- R175: GET_TS. -/
def execGetTs (s : State) : Host.Outcome State Fault Refusal :=
  takeCommand s fun s => answerOk s [if s.mode = .timestamp then timestampValue s else 0]

/-- R176: SET_TS. -/
def execSetTs (v : Word) (s : State) : Host.Outcome State Fault Refusal :=
  takeCommand s fun s => answerOk (if s.mode = .timestamp then setTimestamp s v else s) []

/-- R177: GET_POWER. -/
def execGetPower (s : State) : Host.Outcome State Fault Refusal :=
  takeCommand s fun s => answerOk s [if s.mode = .compressedPower then powerValue s else 0]

/-- R178: SET_POWER. A value too wide for `PWIDTH` is truncated. -/
def execSetPower (v : Word) (s : State) : Host.Outcome State Fault Refusal :=
  takeCommand s fun s => answerOk (if s.mode = .compressedPower then setPowerValue s v else s) []

end Sys2Proof.Machine
end

