-- ==== Sys2Proof/Machine/Serdes.lean ====
section
/-! DEFINITION. SERIALIZE and DESERIALIZE, R204 and R205, with the wire layouts R200 to R203. -/

namespace Sys2Proof.Machine

/-- R94, R200: write one slot as its two raw halves, the low one first. -/
def writeSlot (x : Word) (q : List Byte) : List Byte :=
  outWrite 4 (x.extractLsb' 32 32).toNat (outWrite 4 (x.extractLsb' 0 32).toNat q)

/-- R200: the five slots in slot order, whatever `NHOP` is, and then `NHOP`. -/
def writeRing (s : State) (q : List Byte) : List Byte :=
  outWrite 2 s.nhop.toNat (s.slots.toList.foldl (fun q x => writeSlot x q) q)

/-- R204: what SERIALIZE does to the output stream under the current mode (layouts R200 to R203). -/
def writeHeader (s : State) (q : List Byte) : List Byte :=
  match s.mode with
  | .normal | .portTrace => writeRing s q
  | .timestamp => outWrite 8 (timestampValue s).toNat q
  | .compressedPower => outWrite (pwidthCode s.pwidth).toNat (powerValue s).toNat q
  | .disabled => q

/-- R205: read one slot, the low half first, from the front of a queue. -/
def readSlotFrom (q : List Byte) : Word × List Byte :=
  let lo := inRead 4 q
  let hi := inRead 4 lo.2
  (BitVec.ofNat 64 (hi.1 * 2 ^ 32 + lo.1), hi.2)

/-- R205, Normal and PortTrace: the five slots in slot order and then `NHOP`, from the front of `INQ`. -/
def readRing (s : State) : State :=
  let r0 := readSlotFrom s.inq
  let r1 := readSlotFrom r0.2
  let r2 := readSlotFrom r1.2
  let r3 := readSlotFrom r2.2
  let r4 := readSlotFrom r3.2
  let n := inRead 2 r4.2
  { s with slots := #v[r0.1, r1.1, r2.1, r3.1, r4.1], nhop := BitVec.ofNat 16 n.1, inq := n.2 }

/-- R205: what DESERIALIZE does when `INQ` is long enough. -/
def readHeader (s : State) : State :=
  match s.mode with
  | .normal | .portTrace => readRing s
  | .timestamp =>
    let v := inRead 8 s.inq
    setTimestamp { s with inq := v.2 } (BitVec.ofNat 64 v.1)
  | .compressedPower =>
    let v := inRead (pwidthCode s.pwidth).toNat s.inq
    setPowerValue { s with inq := v.2 } (BitVec.ofNat 64 v.1)
  | .disabled => s

/-- R204: SERIALIZE. -/
def execSerialize (s : State) : Host.Outcome State Fault Refusal :=
  takeCommand s fun s =>
    answerOk { s with outq := writeHeader s s.outq } [BitVec.ofNat 64 (wireSize s)]

/-- R205: DESERIALIZE. With too few bytes in `INQ` it raises `CursorUnderrun` before it removes any (R226). -/
def execDeserialize (s : State) : Host.Outcome State Fault Refusal :=
  takeCommand s fun s =>
    if s.inq.length < wireSize s then raiseFault s .cursorUnderrun
    else answerOk (readHeader s) [BitVec.ofNat 64 (wireSize s)]

end Sys2Proof.Machine
end

