-- ==== Sys2Proof/Syntax.lean ====
section
/-! DEFINITION. The 27 commands of the opcode map (R87), one constructor per row of spec/opcode_table.json. Operand words
stand in the order `A`, `B`, `C`, `D`, `E` of R82. -/

namespace Sys2Proof

/-- R87: the commands of the HRC. -/
inductive Instr where
  | getMode
  | setMode (a : Word)
  | getPwidth
  | setPwidth (a : Word)
  | getMulti
  | setMulti (a : Word)
  | rateOf (a : Word)
  /-- `a` time, `b` byteCount, `c` queueLen, `d` rateBits. -/
  | encNormal (a b c d : Word)
  | encPort (a : Word)
  | decTime (a : Word)
  | decBytes (a : Word)
  | decQlen (a : Word)
  | decRate (a : Word)
  | decPort (a : Word)
  /-- `a` the later record, `b` the earlier one. -/
  | bytesDelta (a b : Word)
  | timeDelta (a b : Word)
  | hdrClear
  | staticSize
  /-- `a` time, `b` bytes, `c` queueLen, `d` rate, `e` port. -/
  | pushHop (a b c d e : Word)
  | getNhop
  /-- The slot index is the `SLOT` field of the command word (R81, R89), not an operand word. -/
  | readSlot (i : BitVec 3)
  | getTs
  | setTs (a : Word)
  | getPower
  | setPower (a : Word)
  | serialize
  | deserialize
  deriving DecidableEq, Repr

end Sys2Proof
end

