-- ==== Sys2Proof/Machine/Dispatch.lean ====
section
/-! DEFINITION. One arm per command of the opcode map (R87), each a direct call of that command's meaning. -/

namespace Sys2Proof.Machine

def exec (i : Instr) (s : State) : Host.Outcome State Fault Refusal :=
  match i with
  | .getMode => Sys2Proof.Machine.execGetMode s
  | .setMode a => Sys2Proof.Machine.execSetMode a s
  | .getPwidth => Sys2Proof.Machine.execGetPwidth s
  | .setPwidth a => Sys2Proof.Machine.execSetPwidth a s
  | .getMulti => Sys2Proof.Machine.execGetMulti s
  | .setMulti a => Sys2Proof.Machine.execSetMulti a s
  | .rateOf a => Sys2Proof.Machine.execRateOf a s
  | .encNormal a b c d => Sys2Proof.Machine.execEncNormal a b c d s
  | .encPort a => Sys2Proof.Machine.execEncPort a s
  | .decTime a => Sys2Proof.Machine.execDecTime a s
  | .decBytes a => Sys2Proof.Machine.execDecBytes a s
  | .decQlen a => Sys2Proof.Machine.execDecQlen a s
  | .decRate a => Sys2Proof.Machine.execDecRate a s
  | .decPort a => Sys2Proof.Machine.execDecPort a s
  | .bytesDelta a b => Sys2Proof.Machine.execBytesDelta a b s
  | .timeDelta a b => Sys2Proof.Machine.execTimeDelta a b s
  | .hdrClear => Sys2Proof.Machine.execHdrClear s
  | .staticSize => Sys2Proof.Machine.execStaticSize s
  | .pushHop a b c d e => Sys2Proof.Machine.execPushHop a b c d e s
  | .getNhop => Sys2Proof.Machine.execGetNhop s
  | .readSlot k => Sys2Proof.Machine.execReadSlot k s
  | .getTs => Sys2Proof.Machine.execGetTs s
  | .setTs a => Sys2Proof.Machine.execSetTs a s
  | .getPower => Sys2Proof.Machine.execGetPower s
  | .setPower a => Sys2Proof.Machine.execSetPower a s
  | .serialize => Sys2Proof.Machine.execSerialize s
  | .deserialize => Sys2Proof.Machine.execDeserialize s

end Sys2Proof.Machine
end

