-- ==== Sys2Proof/WellFormed.lean ====
section
/-! DEFINITION. Which command transactions are legal (R85), one named check for each of the rule's four conditions. The
checks read the command word by division, independently of the decoder's bit slices. Every `Instr` is well formed by its
type (its operands are 64-bit words and its slot index has 3 bits), so the terms that can be ill formed are the raw
transactions. -/

namespace Sys2Proof

/-- R87, column `N`: the operand count of an opcode, and `none` for an opcode the map does not list (R88). -/
def operandCount? (opc : Nat) : Option Nat :=
  if opc ∈ [0x01, 0x03, 0x05, 0x20, 0x21, 0x23, 0x24, 0x25, 0x27, 0x30, 0x31] then some 0
  else if opc ∈ [0x02, 0x04, 0x06, 0x07, 0x11, 0x12, 0x13, 0x14, 0x15, 0x16, 0x26, 0x28] then some 1
  else if opc ∈ [0x17, 0x18] then some 2
  else if opc = 0x10 then some 4
  else if opc = 0x22 then some 5
  else none

/-- R81: bits 7:0 of the command word as a number. -/
def Command.opcodeNumber (c : Command) : Nat := c.word.toNat % 2 ^ 8

/-- R85, first condition: the opcode is one of the 27 of R87. -/
def Command.opcodeListed (c : Command) : Bool := (operandCount? c.opcodeNumber).isSome

/-- R85, second condition: `RSVD`, bits 31:11, is 0. -/
def Command.reservedZero (c : Command) : Bool := c.word.toNat / 2 ^ 11 == 0

/-- R85, third condition: `SLOT`, bits 10:8, is 0 unless the opcode is READ_SLOT's. -/
def Command.slotAllowed (c : Command) : Bool :=
  c.opcodeNumber == 0x24 || c.word.toNat / 2 ^ 8 % 2 ^ 3 == 0

/-- R85, fourth condition: the framing delivers as many operand words as the opcode takes. -/
def Command.countMatches (c : Command) : Bool :=
  operandCount? c.opcodeNumber == some c.operands.length

/-- R85: a command is legal when all four conditions hold. -/
def Command.legal (c : Command) : Bool :=
  c.opcodeListed && c.reservedZero && c.slotAllowed && c.countMatches

end Sys2Proof
end

