-- ==== Sys2Proof/Decode.lean ====
section
/-! DEFINITION. Decoding a command transaction (R81 to R89), total and rejecting by name, and the encoder written from the
same tables. `MODE` never changes decoding (R83), so the decoder does not see the machine's state. -/

namespace Sys2Proof

/-- R221: the four causes of `ERR_ILLEGAL`. The response does not tell them apart. -/
inductive Illegal where
  /-- The opcode is not in R87. -/
  | opcode
  /-- `RSVD` is not 0. -/
  | reserved
  /-- `SLOT` is not 0 on an opcode other than READ_SLOT. -/
  | slot
  /-- The operand count differs from the opcode's `N`. -/
  | operandCount
  deriving DecidableEq, Repr

/-- R81: the reserved field, bits 31:11. -/
def Command.rsvd (c : Command) : BitVec 21 := c.word.extractLsb' 11 21

/-- R81: the slot index field, bits 10:8. -/
def Command.slot (c : Command) : BitVec 3 := c.word.extractLsb' 8 3

/-- R81: the opcode field, bits 7:0. -/
def Command.opc (c : Command) : BitVec 8 := c.word.extractLsb' 0 8

/-- R82, formats F0 and FS: no operand words. -/
def takeF0 (i : Instr) : List Word → Except Illegal Instr
  | [] => .ok i
  | _ => .error .operandCount

/-- R82, format F1: operand `A`. -/
def takeF1 (k : Word → Instr) : List Word → Except Illegal Instr
  | [a] => .ok (k a)
  | _ => .error .operandCount

/-- R82, format F2: operands `A`, `B`. -/
def takeF2 (k : Word → Word → Instr) : List Word → Except Illegal Instr
  | [a, b] => .ok (k a b)
  | _ => .error .operandCount

/-- R82, format F4: operands `A` to `D`. -/
def takeF4 (k : Word → Word → Word → Word → Instr) : List Word → Except Illegal Instr
  | [a, b, c, d] => .ok (k a b c d)
  | _ => .error .operandCount

/-- R82, format F5: operands `A` to `E`. -/
def takeF5 (k : Word → Word → Word → Word → Word → Instr) : List Word → Except Illegal Instr
  | [a, b, c, d, e] => .ok (k a b c d e)
  | _ => .error .operandCount

/-- R87: the opcode map. `i` is the `SLOT` field, which READ_SLOT alone takes as its operand (R89). -/
def decodeOpcode (opc : BitVec 8) (i : BitVec 3) (ops : List Word) : Except Illegal Instr :=
  match opc.toNat with
  | 0x01 => takeF0 .getMode ops
  | 0x02 => takeF1 .setMode ops
  | 0x03 => takeF0 .getPwidth ops
  | 0x04 => takeF1 .setPwidth ops
  | 0x05 => takeF0 .getMulti ops
  | 0x06 => takeF1 .setMulti ops
  | 0x07 => takeF1 .rateOf ops
  | 0x10 => takeF4 .encNormal ops
  | 0x11 => takeF1 .encPort ops
  | 0x12 => takeF1 .decTime ops
  | 0x13 => takeF1 .decBytes ops
  | 0x14 => takeF1 .decQlen ops
  | 0x15 => takeF1 .decRate ops
  | 0x16 => takeF1 .decPort ops
  | 0x17 => takeF2 .bytesDelta ops
  | 0x18 => takeF2 .timeDelta ops
  | 0x20 => takeF0 .hdrClear ops
  | 0x21 => takeF0 .staticSize ops
  | 0x22 => takeF5 .pushHop ops
  | 0x23 => takeF0 .getNhop ops
  | 0x24 => takeF0 (.readSlot i) ops
  | 0x25 => takeF0 .getTs ops
  | 0x26 => takeF1 .setTs ops
  | 0x27 => takeF0 .getPower ops
  | 0x28 => takeF1 .setPower ops
  | 0x30 => takeF0 .serialize ops
  | 0x31 => takeF0 .deserialize ops
  | _ => .error .opcode

/-- R85: decode one transaction. An illegal one is rejected with the name of a cause of R221. The order in
which the causes are looked for is a DESIGN CHOICE, safe: the response is the same for all (assumption 8). -/
def decode (c : Command) : Except Illegal Instr :=
  if c.rsvd = 0 then
    if c.slot = 0 ∨ c.opc = 0x24 then decodeOpcode c.opc c.slot c.operands else .error .slot
  else .error .reserved

/-! ### The encoder -/

/-- R87, column `OPC`. -/
def opcodeOf : Instr → BitVec 8
  | .getMode => 0x01
  | .setMode _ => 0x02
  | .getPwidth => 0x03
  | .setPwidth _ => 0x04
  | .getMulti => 0x05
  | .setMulti _ => 0x06
  | .rateOf _ => 0x07
  | .encNormal _ _ _ _ => 0x10
  | .encPort _ => 0x11
  | .decTime _ => 0x12
  | .decBytes _ => 0x13
  | .decQlen _ => 0x14
  | .decRate _ => 0x15
  | .decPort _ => 0x16
  | .bytesDelta _ _ => 0x17
  | .timeDelta _ _ => 0x18
  | .hdrClear => 0x20
  | .staticSize => 0x21
  | .pushHop _ _ _ _ _ => 0x22
  | .getNhop => 0x23
  | .readSlot _ => 0x24
  | .getTs => 0x25
  | .setTs _ => 0x26
  | .getPower => 0x27
  | .setPower _ => 0x28
  | .serialize => 0x30
  | .deserialize => 0x31

/-- R81: the `SLOT` field, 0 for every command but READ_SLOT. -/
def slotFieldOf : Instr → BitVec 3
  | .readSlot i => i
  | _ => 0

/-- R82: the operand words, in order. -/
def operandsOf : Instr → List Word
  | .setMode a | .setPwidth a | .setMulti a | .rateOf a | .encPort a | .decTime a | .decBytes a
  | .decQlen a | .decRate a | .decPort a | .setTs a | .setPower a => [a]
  | .bytesDelta a b | .timeDelta a b => [a, b]
  | .encNormal a b c d => [a, b, c, d]
  | .pushHop a b c d e => [a, b, c, d, e]
  | .getMode | .getPwidth | .getMulti | .hdrClear | .staticSize | .getNhop | .readSlot _ | .getTs
  | .getPower | .serialize | .deserialize => []

/-- R87, column `M`: how many result words a response to this command carries (R86). -/
def resultCount : Instr → Nat
  | .setMode _ | .setPwidth _ | .setMulti _ | .hdrClear | .pushHop _ _ _ _ _ | .setTs _ | .setPower _ => 0
  | .getMode | .getPwidth | .getMulti | .rateOf _ | .encNormal _ _ _ _ | .encPort _ | .decTime _
  | .decBytes _ | .decQlen _ | .decRate _ | .decPort _ | .bytesDelta _ _ | .timeDelta _ _
  | .staticSize | .getNhop | .readSlot _ | .getTs | .getPower | .serialize | .deserialize => 1

/-- R81: the command word with the given `SLOT` and `OPC` fields and `RSVD` 0. -/
def commandWord (i : BitVec 3) (opc : BitVec 8) : BitVec 32 := 0#21 ++ i ++ opc

/-- The transaction that spells a command. -/
def encode (i : Instr) : Command :=
  { word := commandWord (slotFieldOf i) (opcodeOf i), operands := operandsOf i }

/-! ### The opcode table's own numbering of an instruction's bits -/

/-- The transaction whose bits are `w` in the numbering of spec/opcode_table.json: the command word is bits 31:0 and
operand word `j` is bits 32+64j to 95+64j (R80: a command is 32 + 64 N bits long). Bits from `nbits` up are 0, and the
framing delivers the opcode's own operand count (none for an opcode that has none, R83). DESIGN CHOICE, safe
(assumption 9). -/
def frameTableWord (nbits w : Nat) : Command :=
  let bits := w % 2 ^ nbits
  { word := BitVec.ofNat 32 bits
    operands := (List.range ((operandCount? (bits % 2 ^ 8)).getD 0)).map
      fun j => BitVec.ofNat 64 (bits >>> (32 + 64 * j)) }

/-- What the decoder reads from an instruction numbered as spec/opcode_table.json numbers it. -/
def decodeTableWord (nbits w : Nat) : Option Instr := (decode (frameTableWord nbits w)).toOption

end Sys2Proof
end

