-- ==== Sys2Proof/Machine/Port.lean ====
section
/-! DEFINITION. The command port and the host's other interactions (R65), one operation per kind of host action; the step
only calls these. -/

namespace Sys2Proof.Machine

/-- R61: the host's next action, and the state with that action taken off the list of those still to come. -/
def nextAction? (s : State) : Option (HostAction × State) :=
  match s.host with
  | [] => none
  | a :: rest => some (a, { s with host := rest })

/-- R252: with no action pending the HRC waits for the host. DESIGN CHOICE, safe (assumption 2). -/
def waitForHost (s : State) : Host.Outcome State Fault Refusal := .next s

/-- R85, R221: a command that fails the legality check is answered `ERR_ILLEGAL` and does nothing else, whichever the
cause. -/
def rejectIllegal (_cause : Illegal) (s : State) : Host.Outcome State Fault Refusal :=
  takeCommand s answerIllegal

/-- R65: the host appends bytes to the end of `INQ`. -/
def fillInput (bytes : List Byte) (s : State) : Host.Outcome State Fault Refusal :=
  .next { s with inq := s.inq ++ bytes }

/-- R65: the host removes bytes from the front of `OUTQ`, at most all of them. DESIGN CHOICE, unsafe for a drain of more
bytes than there are (assumption 4). -/
def drainOutput (count : Nat) (s : State) : Host.Outcome State Fault Refusal :=
  .next { s with outq := s.outq.drop count }

/-- R65, R250: the host asserts reset. -/
def assertReset (s : State) : Host.Outcome State Fault Refusal := .next (resetBy s)

/-- R33, R65: the state with one more host action, which comes before those already pending. -/
def prependAction (a : HostAction) (s : State) : State := { s with host := a :: s.host }

end Sys2Proof.Machine
end

