-- ==== Sys2Proof/Machine/Step.lean ====
section
/-! DEFINITION. One step: the host's next action (R61, R65). The HRC fetches no instruction (R63): a command comes from the
host's action, is decoded, and is executed as one atomic step. -/

namespace Sys2Proof.Machine

/-- R61, R65: serve the host's next action. -/
def step (s : State) : Host.Outcome State Fault Refusal :=
  match nextAction? s with
  | none => waitForHost s
  | some (.issue c, t) =>
    match decode c with
    | .ok i => exec i t
    | .error cause => rejectIllegal cause t
  | some (.fill bytes, t) => fillInput bytes t
  | some (.drain count, t) => drainOutput count t
  | some (.reset, t) => assertReset t

/-- `s` with the host's next action being the issue of the transaction whose bits are `w`. DESIGN CHOICE, safe
(assumptions 2 and 9). -/
def State.withFetchWord (s : State) (nbits w : Nat) : State :=
  prependAction (.issue (frameTableWord nbits w)) s

end Sys2Proof.Machine
end

