-- ==== Sys2Proof/Machine/Assembler.lean ====
section
/-! DEFINITION. The assembler syntax (R90) and the two pseudo-commands (R91): one line of text to one command. The lexical
points that R90 leaves open are assumption 7: DESIGN CHOICE, safe for the machine, which never calls the assembler. -/

namespace Sys2Proof.Machine

/-- Why a line is no command. -/
inductive AsmError where
  /-- The mnemonic is none of R87's and no pseudo-command. -/
  | mnemonic
  /-- An operand is no unsigned literal. -/
  | literal
  /-- An operand does not fit its operand word (R84) or the `SLOT` field (R89). -/
  | range
  /-- The number of operands is not the mnemonic's. -/
  | operandCount
  deriving DecidableEq, Repr

/-- R91: `PUSH_NORMAL t, b, q, r`. -/
def pushNormal (t b q r : Word) : Instr := .pushHop t b q r 0

/-- R91: `PUSH_PORT p`. -/
def pushPort (p : Word) : Instr := .pushHop 0 0 0 0 p

/-- R87: the mnemonics of the opcode map and their opcodes. -/
def mnemonics : List (String × BitVec 8) :=
  [("GET_MODE", 0x01), ("SET_MODE", 0x02), ("GET_PWIDTH", 0x03), ("SET_PWIDTH", 0x04), ("GET_MULTI", 0x05),
   ("SET_MULTI", 0x06), ("RATE_OF", 0x07)] ++
  [("ENC_NORMAL", 0x10), ("ENC_PORT", 0x11), ("DEC_TIME", 0x12), ("DEC_BYTES", 0x13), ("DEC_QLEN", 0x14),
   ("DEC_RATE", 0x15), ("DEC_PORT", 0x16), ("BYTES_DELTA", 0x17), ("TIME_DELTA", 0x18)] ++
  [("HDR_CLEAR", 0x20), ("STATIC_SIZE", 0x21), ("PUSH_HOP", 0x22), ("GET_NHOP", 0x23), ("READ_SLOT", 0x24),
   ("GET_TS", 0x25), ("SET_TS", 0x26), ("GET_POWER", 0x27), ("SET_POWER", 0x28)] ++
  [("SERIALIZE", 0x30), ("DESERIALIZE", 0x31)]

/-- Blank characters. -/
def isBlank (c : Char) : Bool := c == ' ' || c == '\t' || c == '\r'

/-- Drop blanks at both ends. -/
def trimBlanks (cs : List Char) : List Char :=
  ((cs.dropWhile isBlank).reverse.dropWhile isBlank).reverse

/-- R90: text from `;` to the end of the line is a comment. -/
def dropComment (cs : List Char) : List Char := cs.takeWhile (· != ';')

/-- The parts of a text between its commas. -/
def splitCommas : List Char → List (List Char)
  | [] => [[]]
  | c :: cs =>
    match splitCommas cs with
    | [] => [[c]]
    | part :: parts => if c = ',' then [] :: part :: parts else (c :: part) :: parts

/-- The value of a digit, decimal or hexadecimal. -/
def digitValue? (c : Char) : Option Nat :=
  if '0' ≤ c ∧ c ≤ '9' then some (c.toNat - '0'.toNat)
  else if 'a' ≤ c ∧ c ≤ 'f' then some (c.toNat - 'a'.toNat + 10)
  else if 'A' ≤ c ∧ c ≤ 'F' then some (c.toNat - 'A'.toNat + 10)
  else none

/-- The value of digits in a base, most significant first, added to what stands before them; `none` at a character that
is no digit of the base. -/
def digitsFrom (base : Nat) : Nat → List Char → Option Nat
  | acc, [] => some acc
  | acc, c :: cs =>
    match digitValue? c with
    | some d => if d < base then digitsFrom base (acc * base + d) cs else none
    | none => none

/-- R90: digits in a base, where `_` may separate digits and is ignored; at least one digit must stand there. -/
def parseDigits? (base : Nat) (cs : List Char) : Option Nat :=
  match cs.filter (· != '_') with
  | [] => none
  | ds => digitsFrom base 0 ds

/-- R90: an unsigned literal, decimal or hexadecimal. -/
def parseLiteral? : List Char → Option Nat
  | '0' :: 'x' :: cs => parseDigits? 16 cs
  | cs => parseDigits? 10 cs

/-- The numbers of a list of literals, every one of them or the error. -/
def parseAll : List (List Char) → Except AsmError (List Nat)
  | [] => .ok []
  | p :: ps =>
    match parseLiteral? (trimBlanks p), parseAll ps with
    | none, _ => .error .literal
    | some _, .error e => .error e
    | some n, .ok ns => .ok (n :: ns)

/-- R90: the operands after the mnemonic, separated by commas; no text is no operand. -/
def parseOperands (cs : List Char) : Except AsmError (List Nat) :=
  if trimBlanks cs = [] then .ok [] else parseAll (splitCommas cs)

/-- R84: an operand word spells a number below 2^64. -/
def operandWords? (ns : List Nat) : Option (List Word) :=
  if ns.all (· < 2 ^ 64) then some (ns.map (BitVec.ofNat 64)) else none

/-- R90, R91: the command that a mnemonic and its operands spell. READ_SLOT's operand is encoded in `SLOT`, and every other
operand is an operand word, so those go through the decoder's own operand forms. -/
def assembleParts (name : List Char) (ns : List Nat) : Except AsmError Instr :=
  match operandWords? ns with
  | none => .error .range
  | some ws =>
    if name = "READ_SLOT".toList then
      match ns with
      | [n] => if n < 8 then .ok (.readSlot (BitVec.ofNat 3 n)) else .error .range
      | _ => .error .operandCount
    else if name = "PUSH_NORMAL".toList then
      match ws with
      | [t, b, q, r] => .ok (pushNormal t b q r)
      | _ => .error .operandCount
    else if name = "PUSH_PORT".toList then
      match ws with
      | [p] => .ok (pushPort p)
      | _ => .error .operandCount
    else
      match mnemonics.find? (fun row => row.1.toList = name) with
      | none => .error .mnemonic
      | some row =>
        match decodeOpcode row.2 0 ws with
        | .ok i => .ok i
        | .error _ => .error .operandCount

/-- R90: one line. A line with nothing but blanks and a comment is no command. -/
def assembleLine (line : List Char) : Except AsmError (Option Instr) :=
  let text := trimBlanks (dropComment line)
  if text = [] then .ok none
  else
    match parseOperands (text.dropWhile (fun c => !isBlank c)) with
    | .error e => .error e
    | .ok ns =>
      match assembleParts (text.takeWhile (fun c => !isBlank c)) ns with
      | .error e => .error e
      | .ok i => .ok (some i)

end Sys2Proof.Machine
end

