-- ==== Sys2Proof/Safety.lean ====
section
/-! DEFINITION. The terms that claims about the HRC use: what a completed command leaves (R33, R86), the invariant, the end
of a run (R264), and the spec's own descriptions of a record, a wire image and a sequence of pushes, written over numbers
and bytes and not over the machine's operations. -/

namespace Sys2Proof.Machine

/-- R33, R86: `s` after a command that completed with this status and these result words and had no other effect. -/
def answered (s : State) (st : Status) (rs : List Word) : State :=
  { s with ci := s.ci + 1, responses := s.responses ++ [{ status := st, results := rs }] }

/-- R81, R82, R87: `i` is the command that the command word `w` and the operand words `ops` spell. -/
def SpelledBy (i : Instr) (w : BitVec 32) (ops : List Word) : Prop := decode { word := w, operands := ops } = .ok i

/-! ### Reset, the invariant, the end of a run -/

/-- R20, R250: every register of the HRC is at its reset value. -/
def AtResetValues (s : State) : Prop :=
  modeCode s.mode = 0 ∧ pwidthCode s.pwidth = 2 ∧ s.multi = 1 ∧ (∀ j : Fin 5, s.slots[j] = 0) ∧ s.nhop = 0 ∧
    s.fault = none ∧ s.inq = [] ∧ s.outq = [] ∧ s.ci = 0

/-- R86, R220: the shape of a response. An illegal command has no result words, an error has its command's result words
all 0, and no command has more than one result word. -/
def Response.wellFormed (r : Response) : Bool :=
  match r.status with
  | .ok => r.results.length ≤ 1
  | .errIllegal | .errCfg => r.results == []
  | .errSlot => r.results == [0]
  | .errRate => r.results == [] || r.results == [0]

/-- The invariant of the HRC: `MULTI >= 1` (R23), `CI` counts the completed commands and each of them gave one response
(R33, R86), and every response has the shape of R86. -/
def Inv (s : State) : Prop :=
  s.multi ≠ 0 ∧ s.ci = s.responses.length ∧ ∀ r ∈ s.responses, r.wellFormed = true

/-- R33, R264: the number of commands among the host's actions to come, up to a reset, which begins another run. DEDUCED,
safe (assumption 12). -/
def commandsToCome : List HostAction → Nat
  | [] => 0
  | .issue _ :: rest => commandsToCome rest + 1
  | .fill _ :: rest => commandsToCome rest
  | .drain _ :: rest => commandsToCome rest
  | .reset :: _ => 0

/-- R264: the start of a run, right after a reset, with what the host will do. -/
def runStart (p : Params) (actions : List HostAction) : State := { State.reset with params := p, host := actions }

/-- R264: the states of the run of a list of host actions. It starts right after a reset and goes on while commands of the
host's sequence are left, with the host's stream actions between them. -/
inductive InRun (p : Params) (actions : List HostAction) : State → Prop where
  | start : InRun p actions (runStart p actions)
  | goOn {s t} : InRun p actions s → commandsToCome s.host ≠ 0 → step s = .next t → InRun p actions t

/-- R264, D25: a run whose sequence has this many commands ends normally in `s`: `CI` equals the length of the sequence and
`FAULT` is none. -/
def endsNormally (commands : Nat) (s : State) : Bool := s.ci == commands && s.fault.isNone

/-- R228: the HRC is stuck. -/
def stuck (s : State) : Bool := s.fault.isSome

/-- R264: what a run lets the host see. -/
structure Observation where
  responses : List Response
  mode      : Mode
  pwidth    : PowerWidth
  multi     : BitVec 32
  slots     : Vector Word maxHop
  nhop      : BitVec 16
  inq       : List Byte
  outq      : List Byte
  deriving DecidableEq, Repr

/-- R264: the observation of a run that ends in `s`. -/
def observe (s : State) : Observation where
  responses := s.responses
  mode := s.mode
  pwidth := s.pwidth
  multi := s.multi
  slots := s.slots
  nhop := s.nhop
  inq := s.inq
  outq := s.outq

/-! ### Classes of commands -/

/-- R60: the commands that change no state and no stream. -/
def onlyAnswers : Instr → Bool
  | .getMode | .getPwidth | .getMulti | .rateOf _ | .staticSize | .getNhop | .readSlot _ | .getTs | .getPower => true
  | .encNormal _ _ _ _ | .encPort _ | .decTime _ | .decBytes _ | .decQlen _ | .decRate _ | .decPort _
  | .bytesDelta _ _ | .timeDelta _ _ => true
  | .setMode _ | .setPwidth _ | .setMulti _ | .hdrClear | .pushHop _ _ _ _ _ | .setTs _ | .setPower _
  | .serialize | .deserialize => false

/-- R120 to R126: the configuration commands. -/
def configurationCommand : Instr → Bool
  | .getMode | .setMode _ | .getPwidth | .setPwidth _ | .getMulti | .setMulti _ | .rateOf _ => true
  | .encNormal _ _ _ _ | .encPort _ | .decTime _ | .decBytes _ | .decQlen _ | .decRate _ | .decPort _
  | .bytesDelta _ _ | .timeDelta _ _ => false
  | .hdrClear | .staticSize | .pushHop _ _ _ _ _ | .getNhop | .readSlot _ | .getTs | .setTs _ | .getPower
  | .setPower _ | .serialize | .deserialize => false

/-- R142 to R150: the codec commands. -/
def codecCommand : Instr → Bool
  | .encNormal _ _ _ _ | .encPort _ | .decTime _ | .decBytes _ | .decQlen _ | .decRate _ | .decPort _
  | .bytesDelta _ _ | .timeDelta _ _ => true
  | .getMode | .setMode _ | .getPwidth | .setPwidth _ | .getMulti | .setMulti _ | .rateOf _ => false
  | .hdrClear | .staticSize | .pushHop _ _ _ _ _ | .getNhop | .readSlot _ | .getTs | .setTs _ | .getPower
  | .setPower _ | .serialize | .deserialize => false

/-! ### Records and wire images -/

/-- R141, R142: `x` is the Normal-form record of the sample `(time, bytes, qlen)` with rate code `c` under the `MULTI` and
the layout of `s`. Its four fields say every bit of it (R92). -/
def IsRecordOf (s : State) (time bytes qlen : Word) (c : BitVec 3) (x : Word) : Prop :=
  (fTime s.params.hopLayout x).toNat = time.toNat % 2 ^ 24 ∧
    (fBytes s.params.hopLayout x).toNat = bytes.toNat / (128 * s.multi.toNat) % 2 ^ 20 ∧
    (fQlen s.params.hopLayout x).toNat = qlen.toNat / (80 * s.multi.toNat) % 2 ^ 17 ∧
    fRate s.params.hopLayout x = c

/-- R57: byte `k` of a value is at offset `offset + k` of `w`. -/
def HasByte (w : List Byte) (offset : Nat) (v k : Nat) : Prop :=
  w[offset + k]? = some (BitVec.ofNat 8 (v / 256 ^ k))

/-- R200 to R203: `w` is the wire image of the header storage under the current mode and power width. -/
def IsWireImage (s : State) (w : List Byte) : Prop :=
  match s.mode with
  | .normal | .portTrace =>
    w.length = 42 ∧ (∀ j : Fin 5, ∀ k < 8, HasByte w (8 * j.val) s.slots[j].toNat k) ∧
      HasByte w 40 s.nhop.toNat 0 ∧ HasByte w 40 s.nhop.toNat 1
  | .timestamp => w.length = 8 ∧ ∀ k < 8, HasByte w 0 s.slots[0].toNat k
  | .compressedPower =>
    w.length = (pwidthCode s.pwidth).toNat ∧ ∀ k < (pwidthCode s.pwidth).toNat, HasByte w 0 s.slots[0].toNat k
  | .disabled => w = []

/-- R52, R53, R54: what two states with the same mode and power width share when the active payload is the same: the ring
and `NHOP`, the timestamp, or the low `PWIDTH` bytes of `SLOT[0]`. -/
def SamePayload (s t : State) : Prop :=
  match s.mode with
  | .normal | .portTrace => t.slots = s.slots ∧ t.nhop = s.nhop
  | .timestamp => t.slots[0] = s.slots[0]
  | .compressedPower =>
    t.slots[0].toNat % 256 ^ (pwidthCode s.pwidth).toNat = s.slots[0].toNat % 256 ^ (pwidthCode s.pwidth).toNat
  | .disabled => True

/-- R35, R205: the storage bits outside the active payload of `s` are the same in `t`. -/
def SameOutsidePayload (s t : State) : Prop :=
  match s.mode with
  | .normal | .portTrace => True
  | .timestamp => t.nhop = s.nhop ∧ ∀ j : Fin 5, j ≠ 0 → t.slots[j] = s.slots[j]
  | .compressedPower =>
    t.nhop = s.nhop ∧ (∀ j : Fin 5, j ≠ 0 → t.slots[j] = s.slots[j]) ∧
      t.slots[0].toNat / 256 ^ (pwidthCode s.pwidth).toNat = s.slots[0].toNat / 256 ^ (pwidthCode s.pwidth).toNat
  | .disabled => t.slots = s.slots ∧ t.nhop = s.nhop

/-! ### Sequences of pushes -/

/-- R172: `i` is a push that succeeds in `s` and writes the record `x`. -/
def Pushes (s : State) (i : Instr) (x : Word) : Prop :=
  ∃ time bytes qlen rate port, i = .pushHop time bytes qlen rate port ∧
    (s.mode = .portTrace ∧ x = port ∨
      s.mode = .normal ∧ ∃ c : BitVec 3, c.toNat ≤ 4 ∧ rateOf c = rate ∧ IsRecordOf s time bytes qlen c x)

/-- R179: from `s` the HRC takes commands, none of them one that writes the storage in another way than a push, and ends in
`t`; `xs` are the records that its successful pushes wrote, oldest first. -/
inductive PushRun (s : State) : List Word → State → Prop where
  | start : PushRun s [] s
  /-- A successful push. -/
  | push {xs t i x u} : PushRun s xs t → Pushes t i x → exec i t = .next u → PushRun s (xs ++ [x]) u
  /-- Any other command but HDR_CLEAR, DESERIALIZE, SET_TS and SET_POWER. -/
  | other {xs t i u} : PushRun s xs t → (∀ x, ¬ Pushes t i x) → i ≠ .hdrClear → i ≠ .deserialize →
      (∀ v, i ≠ .setTs v) → (∀ v, i ≠ .setPower v) → exec i t = .next u → PushRun s xs u

/-- R27, R170: the header is fresh. -/
def FreshHeader (s : State) : Prop := (∀ j : Fin 5, s.slots[j] = 0) ∧ s.nhop = 0

end Sys2Proof.Machine
end

