-- ==== Sys2Proof/Certificates/Slice0/Obligations.lean ====
section
/-! DEFINITION. The statements for the provers. Each docstring names the rules of the spec it formalises. A result statement
gives the whole next state, so it is also the command's frame and its completion statement: `answered` changes `CI` and the
responses alone, and everything not named in the record update is as before. -/

open Sys2Proof Sys2Proof.Machine

/-! ### Encoding -/

/-- R81, R82, R87, R89: the encoder's spelling of every command decodes to that command. -/
def Obligations.DecodeInvertsEncode : Prop := ∀ i : Instr, decode (encode i) = .ok i

/-- R81 to R85, D3: a command has one spelling, so a transaction that decodes is the encoder's spelling. -/
def Obligations.EncodeInvertsDecode : Prop := ∀ (c : Command) (i : Instr), decode c = .ok i → encode i = c

/-- R85: the four conditions, read off the command word as a number, are exactly what the decoder accepts. -/
def Obligations.DecodeAcceptsExactlyLegalCommands : Prop :=
  ∀ c : Command,
    (∃ i, decode c = .ok i) ↔
      ∃ n, operandCount? (c.word.toNat % 2 ^ 8) = some n ∧ c.word.toNat / 2 ^ 11 = 0 ∧
        (c.word.toNat / 2 ^ 8 % 2 ^ 3 = 0 ∨ c.word.toNat % 2 ^ 8 = 0x24) ∧ c.operands.length = n

/-- R88: the opcode values outside the map, 0x00 among them, a nonzero `RSVD`, and a nonzero `SLOT` on any opcode but
READ_SLOT are illegal, and each is answered `ERR_ILLEGAL`. -/
def Obligations.UnlistedOpcodesAreIllegal : Prop :=
  ∀ (s : State) (c : Command) (rest : List HostAction) (o : Nat), s.fault = none → s.host = .issue c :: rest →
    o = c.word.toNat % 2 ^ 8 →
    (o = 0 ∨ 0x08 ≤ o ∧ o ≤ 0x0F ∨ 0x19 ≤ o ∧ o ≤ 0x1F ∨ 0x29 ≤ o ∧ o ≤ 0x2F ∨ 0x32 ≤ o ∨
        c.word.toNat / 2 ^ 11 ≠ 0 ∨ (c.word.toNat / 2 ^ 8 % 2 ^ 3 ≠ 0 ∧ o ≠ 0x24)) →
      step s = .next (answered { s with host := rest } .errIllegal [])

/-- R87, R90, R120, R142, R172, R174, R205: words written out from the spec decode to the commands they stand for. -/
def Obligations.SpecWordsDecode : Prop :=
  decode { word := 0x00000001, operands := [] } = .ok .getMode ∧
    decode { word := 0x00000002, operands := [1] } = .ok (.setMode 1) ∧
    decode { word := 0x00000324, operands := [] } = .ok (.readSlot 3) ∧
    decode { word := 0x00000022, operands := [100, 1280, 800, 100000000000, 0] } =
      .ok (.pushHop 100 1280 800 100000000000 0) ∧
    decode { word := 0x00000010, operands := [0, 256, 0, 100000000000] } = .ok (.encNormal 0 256 0 100000000000) ∧
    decode { word := 0x00000031, operands := [] } = .ok .deserialize

/-- R91: what the two pseudo-commands expand to, and PUSH_PORT in Normal mode. -/
def Obligations.PseudoCommandsExpandToPushHop : Prop :=
  (∀ t b q r, pushNormal t b q r = .pushHop t b q r 0) ∧ (∀ p, pushPort p = .pushHop 0 0 0 0 p) ∧
    ∀ s p, s.fault = none → s.mode = .normal → exec (pushPort p) s = .next (answered s .errRate [])

/-! ### The step, the host, reset and the fault -/

/-- R61, R63, R65: when the host's next action issues a transaction that decodes to a command, the step is that command on
the state with the action taken off the host's list. -/
def Obligations.StepRunsTheDecodedCommand : Prop :=
  ∀ (s : State) (c : Command) (rest : List HostAction) (i : Instr),
    s.host = .issue c :: rest → decode c = .ok i → step s = exec i { s with host := rest }

/-- R65, R252: the host's stream actions, in every state. That the machine waits where no action is pending and that a drain
removes at most what is there are the model's choices (assumptions 2 and 4), as is what reset leaves of the model's own
fields (assumptions 1, 2 and 3). -/
def Obligations.StepServesTheHostsOtherActions : Prop :=
  (∀ (s : State) bytes rest, s.host = .fill bytes :: rest →
      step s = .next { s with host := rest, inq := s.inq ++ bytes }) ∧
    (∀ (s : State) n rest, s.host = .drain n :: rest →
      step s = .next { s with host := rest, outq := s.outq.drop n }) ∧
    (∀ (s : State) rest, s.host = .reset :: rest →
      step s = .next { State.reset with params := s.params, host := rest }) ∧
    ∀ s : State, s.host = [] → step s = .next s

/-- R221: a command with any of the four causes is answered `ERR_ILLEGAL` with no result words and does nothing else. -/
def Obligations.IllegalCommandsAreOnlyAnswered : Prop :=
  ∀ (s : State) (c : Command) (rest : List HostAction) (o : Nat), s.fault = none → s.host = .issue c :: rest →
    o = c.word.toNat % 2 ^ 8 →
    (operandCount? o = none ∨ c.word.toNat / 2 ^ 11 ≠ 0 ∨ (c.word.toNat / 2 ^ 8 % 2 ^ 3 ≠ 0 ∧ o ≠ 0x24) ∨
        operandCount? o ≠ some c.operands.length) →
      step s = .next (answered { s with host := rest } .errIllegal [])

/-- R61, R63: a step takes exactly the host's next action, and nothing the HRC holds can change a later one; no step changes
the layout parameter (R13; assumption 1). -/
def Obligations.StepTakesOneActionAndKeepsTheLayout : Prop :=
  ∀ s t : State, step s = .next t → t.host = s.host.tail ∧ t.params = s.params

/-- R33: `CI` starts at 0, each completed command advances it by exactly 1, a command that faults does not advance it, and
nothing else but reset, which sets it to 0, changes it. -/
def Obligations.CommandIndexCountsCompletedCommands : Prop :=
  State.reset.ci = 0 ∧ ∀ s t : State, step s = .next t →
    match s.host.head? with
    | some (.issue _) =>
      (t.fault = none ∧ t.ci = s.ci + 1) ∨ (s.fault = none ∧ t.fault = some .cursorUnderrun ∧ t.ci = s.ci)
    | some .reset => t.ci = 0
    | some (.fill _) | some (.drain _) | none => t.ci = s.ci

/-- R250: the reset values, at `State.reset` and after every reset the host asserts. -/
def Obligations.ResetPutsEveryRegisterAtItsResetValue : Prop :=
  AtResetValues State.reset ∧
    ∀ (s : State) (rest : List HostAction), s.host = .reset :: rest → ∃ t, step s = .next t ∧ AtResetValues t

/-- R225, R226: an underrun sets `FAULT` and changes nothing else; there is no response and `CI` stays. -/
def Obligations.UnderrunSetsTheFaultAndNothingElse : Prop :=
  ∀ s : State, s.fault = none → s.inq.length < wireSize s →
    exec .deserialize s = .next { s with fault := some .cursorUnderrun }

/-- R228: while `FAULT` holds a fault the HRC takes no command, legal or not, only reset leaves the fault state, and no
run, however long its sequence of commands, ends normally there. -/
def Obligations.FaultedMachineTakesNoCommand : Prop :=
  ∀ (s : State) (f : Fault), s.fault = some f →
    (∀ c rest, s.host = .issue c :: rest → step s = .fault f) ∧
      (∀ t, step s = .next t → s.host.head? ≠ some .reset → t.fault = some f) ∧
        stuck s = true ∧ ∀ n, endsNormally n s = false

/-- R31: `FAULT` is set only by a DESERIALIZE that finds too few bytes, cleared only by reset, and while it is set no command
has an effect. -/
def Obligations.FaultChangesOnlyByUnderrunOrReset : Prop :=
  (∀ s t : State, step s = .next t → t.fault ≠ s.fault →
      (s.host.head? = some .reset ∧ t.fault = none) ∨
        (s.fault = none ∧ t.fault = some .cursorUnderrun ∧ s.inq.length < wireSize s ∧
          ∃ c rest, s.host = .issue c :: rest ∧ decode c = .ok .deserialize)) ∧
    ∀ (i : Instr) (s : State) (f : Fault), s.fault = some f → exec i s = .fault f

/-! ### Configuration -/

/-- R120, R122, R124: the configuration registers are read zero-extended, and nothing changes. `MULTI >= 1` is the
invariant's first clause. -/
def Obligations.ConfigurationReadsAnswerTheRegister : Prop :=
  SpelledBy .getMode 0x00000001 [] ∧ SpelledBy .getPwidth 0x00000003 [] ∧ SpelledBy .getMulti 0x00000005 [] ∧
    ∀ s : State, s.fault = none →
      (∃ w : Word, exec .getMode s = .next (answered s .ok [w]) ∧ w.toNat = (modeCode s.mode).toNat ∧ w.toNat ≤ 4) ∧
        (∃ w : Word, exec .getPwidth s = .next (answered s .ok [w]) ∧ w.toNat = (pwidthCode s.pwidth).toNat ∧
          (w.toNat = 1 ∨ w.toNat = 2)) ∧
        ∃ w : Word, exec .getMulti s = .next (answered s .ok [w]) ∧ w.toNat = s.multi.toNat ∧ w.toNat ≤ 2 ^ 32 - 1 ∧
          (Inv s → 1 ≤ w.toNat)

/-- R21, R121: the encoding of each mode; SET_MODE writes the mode its operand encodes and refuses every operand above 4,
with no truncation. -/
def Obligations.SetModeWritesOnlyLegalModes : Prop :=
  (modeCode .disabled = 0 ∧ modeCode .normal = 1 ∧ modeCode .timestamp = 2 ∧ modeCode .compressedPower = 3 ∧
      modeCode .portTrace = 4) ∧
    (∀ a, SpelledBy (.setMode a) 0x00000002 [a]) ∧
    ∀ (s : State) (a : Word), s.fault = none →
      (a.toNat ≤ 4 → ∃ m, (modeCode m).toNat = a.toNat ∧
          exec (.setMode a) s = .next (answered { s with mode := m } .ok [])) ∧
        (4 < a.toNat → exec (.setMode a) s = .next (answered s .errCfg []))

/-- R22, R123: the encodings of the power widths; SET_PWIDTH writes 1 or 2 and refuses every other operand. -/
def Obligations.SetPwidthWritesOnlyOneOrTwo : Prop :=
  (pwidthCode .oneByte = 1 ∧ pwidthCode .twoBytes = 2) ∧ (∀ a, SpelledBy (.setPwidth a) 0x00000004 [a]) ∧
    ∀ (s : State) (a : Word), s.fault = none →
      (a.toNat = 1 ∨ a.toNat = 2 → ∃ w, (pwidthCode w).toNat = a.toNat ∧
          exec (.setPwidth a) s = .next (answered { s with pwidth := w } .ok [])) ∧
        (a.toNat ≠ 1 ∧ a.toNat ≠ 2 → exec (.setPwidth a) s = .next (answered s .errCfg []))

/-- R125: SET_MULTI writes 1 to 2^32-1 and refuses 0 and every operand of 2^32 or more. -/
def Obligations.SetMultiRefusesZeroAndWideOperands : Prop :=
  (∀ a, SpelledBy (.setMulti a) 0x00000006 [a]) ∧
    ∀ (s : State) (a : Word), s.fault = none →
      (1 ≤ a.toNat ∧ a.toNat < 2 ^ 32 → ∃ m : BitVec 32, m.toNat = a.toNat ∧
          exec (.setMulti a) s = .next (answered { s with multi := m } .ok [])) ∧
        (a.toNat = 0 ∨ 2 ^ 32 ≤ a.toNat → exec (.setMulti a) s = .next (answered s .errCfg []))

/-- R24, R126: the eight entries of the line-rate table, and RATE_OF, which gives the entry of codes 0 to 7 and 0 for every
other operand. -/
def Obligations.RateOfLooksUpTheTable : Prop :=
  (rateOf 0 = 25000000000 ∧ rateOf 1 = 50000000000 ∧ rateOf 2 = 100000000000 ∧ rateOf 3 = 200000000000 ∧
      rateOf 4 = 400000000000 ∧ rateOf 5 = 0 ∧ rateOf 6 = 0 ∧ rateOf 7 = 0) ∧
    (∀ a, SpelledBy (.rateOf a) 0x00000007 [a]) ∧
    ∀ (s : State) (a : Word), s.fault = none →
      exec (.rateOf a) s = .next (answered s .ok
        [if a = 0 then 25000000000 else if a = 1 then 50000000000 else if a = 2 then 100000000000
          else if a = 3 then 200000000000 else if a = 4 then 400000000000 else 0])

/-- R127: no configuration command changes the header storage, the streams or `FAULT`. -/
def Obligations.ConfigurationCommandsKeepStorageAndStreams : Prop :=
  ∀ (i : Instr) (s t : State), configurationCommand i = true → exec i s = .next t →
    t.slots = s.slots ∧ t.nhop = s.nhop ∧ t.inq = s.inq ∧ t.outq = s.outq ∧ t.fault = s.fault

/-! ### Records and the codec -/

/-- R92: `pack` in both layouts, as the sums the rule gives. -/
def Obligations.PackPlacesFieldsAtTheSpecsBits : Prop :=
  ∀ (t : BitVec 24) (b : BitVec 20) (q : BitVec 17) (r : BitVec 3),
    (pack .docOrder t b q r).toNat = t.toNat + b.toNat * 2 ^ 24 + q.toNat * 2 ^ 44 + r.toNat * 2 ^ 61 ∧
      (pack .rateLow t b q r).toNat = r.toNat + t.toNat * 2 ^ 3 + b.toNat * 2 ^ 27 + q.toNat * 2 ^ 47

/-- R93: the fields' bit positions in both layouts, and that packing and extraction are inverse. The spec marks the
inverse laws as derived from R92. -/
def Obligations.FieldExtractionInvertsPack : Prop :=
  (∀ x : Word,
      ((fTime .docOrder x).toNat = x.toNat % 2 ^ 24 ∧ (fBytes .docOrder x).toNat = x.toNat / 2 ^ 24 % 2 ^ 20 ∧
        (fQlen .docOrder x).toNat = x.toNat / 2 ^ 44 % 2 ^ 17 ∧ (fRate .docOrder x).toNat = x.toNat / 2 ^ 61) ∧
      ((fTime .rateLow x).toNat = x.toNat / 2 ^ 3 % 2 ^ 24 ∧ (fBytes .rateLow x).toNat = x.toNat / 2 ^ 27 % 2 ^ 20 ∧
        (fQlen .rateLow x).toNat = x.toNat / 2 ^ 47 ∧ (fRate .rateLow x).toNat = x.toNat % 2 ^ 3)) ∧
    (∀ (lay : HopLayout) (t : BitVec 24) (b : BitVec 20) (q : BitVec 17) (r : BitVec 3),
      fTime lay (pack lay t b q r) = t ∧ fBytes lay (pack lay t b q r) = b ∧ fQlen lay (pack lay t b q r) = q ∧
        fRate lay (pack lay t b q r) = r) ∧
    ∀ (lay : HopLayout) (x : Word), pack lay (fTime lay x) (fBytes lay x) (fQlen lay x) (fRate lay x) = x

/-- R140, R141, R142: ENC_NORMAL answers the record of the sample when the rate is one of the five known rates, and
`ERR_RATE` with the result word 0 for every other rate. -/
def Obligations.EncNormalAnswersTheQuantizedRecord : Prop :=
  (∀ a b c d, SpelledBy (.encNormal a b c d) 0x00000010 [a, b, c, d]) ∧
    ∀ (s : State) (a b c d : Word), s.fault = none →
      (∀ k : BitVec 3, k.toNat ≤ 4 → rateOf k = d →
          ∃ x, IsRecordOf s a b c k x ∧ exec (.encNormal a b c d) s = .next (answered s .ok [x])) ∧
        ((∀ k : BitVec 3, k.toNat ≤ 4 → rateOf k ≠ d) →
          exec (.encNormal a b c d) s = .next (answered s .errRate [0]))

/-- R143, R148: a port is stored and decoded verbatim. -/
def Obligations.PortCodecIsVerbatim : Prop :=
  (∀ a, SpelledBy (.encPort a) 0x00000011 [a]) ∧ (∀ a, SpelledBy (.decPort a) 0x00000016 [a]) ∧
    ∀ (s : State) (a : Word), s.fault = none →
      exec (.encPort a) s = .next (answered s .ok [a]) ∧ exec (.decPort a) s = .next (answered s .ok [a])

/-- R144 to R147: the decoders' exact results. -/
def Obligations.DecodersInvertEachField : Prop :=
  (∀ a, SpelledBy (.decTime a) 0x00000012 [a]) ∧ (∀ a, SpelledBy (.decBytes a) 0x00000013 [a]) ∧
    (∀ a, SpelledBy (.decQlen a) 0x00000014 [a]) ∧ (∀ a, SpelledBy (.decRate a) 0x00000015 [a]) ∧
    ∀ (s : State) (a : Word), s.fault = none →
      (∃ w : Word, exec (.decTime a) s = .next (answered s .ok [w]) ∧
          w.toNat = (fTime s.params.hopLayout a).toNat) ∧
        (∃ w : Word, exec (.decBytes a) s = .next (answered s .ok [w]) ∧
          w.toNat = (fBytes s.params.hopLayout a).toNat * 128 * s.multi.toNat) ∧
        (∃ w : Word, exec (.decQlen a) s = .next (answered s .ok [w]) ∧
          w.toNat = (fQlen s.params.hopLayout a).toNat * 80 * s.multi.toNat) ∧
        exec (.decRate a) s = .next (answered s .ok [rateOf (fRate s.params.hopLayout a)])

/-- R149: the byte delta, modulo 2^20 units of `128 * MULTI`, and what swapping the operands gives. -/
def Obligations.BytesDeltaIsModuloTwoToTheTwenty : Prop :=
  (∀ a b, SpelledBy (.bytesDelta a b) 0x00000017 [a, b]) ∧
    ∀ (s : State) (a b : Word) (fa fb : Nat), s.fault = none →
      fa = (fBytes s.params.hopLayout a).toNat → fb = (fBytes s.params.hopLayout b).toNat →
        ∃ w v : Word, exec (.bytesDelta a b) s = .next (answered s .ok [w]) ∧
          exec (.bytesDelta b a) s = .next (answered s .ok [v]) ∧
          (fb ≤ fa → w.toNat = (fa - fb) * 128 * s.multi.toNat) ∧
          (fa < fb → w.toNat = (fa + 2 ^ 20 - fb) * 128 * s.multi.toNat) ∧
          ∃ d < 2 ^ 20, (fb + d) % 2 ^ 20 = fa ∧ w.toNat = d * 128 * s.multi.toNat ∧
            v.toNat = (2 ^ 20 - d) % 2 ^ 20 * 128 * s.multi.toNat

/-- R150: the time delta, modulo 2^24, with unit 1. -/
def Obligations.TimeDeltaIsModuloTwoToTheTwentyFour : Prop :=
  (∀ a b, SpelledBy (.timeDelta a b) 0x00000018 [a, b]) ∧
    ∀ (s : State) (a b : Word) (ta tb : Nat), s.fault = none →
      ta = (fTime s.params.hopLayout a).toNat → tb = (fTime s.params.hopLayout b).toNat →
        ∃ w : Word, exec (.timeDelta a b) s = .next (answered s .ok [w]) ∧
          (tb ≤ ta → w.toNat = ta - tb) ∧ (ta < tb → w.toNat = ta + 2 ^ 24 - tb) ∧
          w.toNat < 2 ^ 24 ∧ (tb + w.toNat) % 2 ^ 24 = ta

/-- R152: the bounds of the decoded values, and that decoding a record that ENC_NORMAL answers gives back what
quantization keeps. The spec marks this rule as derived, from R141, R142, R145 to R147 and R23. -/
def Obligations.EncodeThenDecodeTruncatesToUnits : Prop :=
  (∀ (s t : State) (i : Instr) (a b w : Word), exec i s = .next t → t = answered s .ok [w] →
      (i = .decBytes a → w.toNat < 2 ^ 59) ∧ (i = .decQlen a → w.toNat < 2 ^ 56) ∧
        (i = .bytesDelta a b → w.toNat < 2 ^ 59) ∧ (i = .timeDelta a b → w.toNat < 2 ^ 24) ∧
        (i = .decRate a → w.toNat ≤ 4 * 10 ^ 11)) ∧
    ∀ (s : State) (t b q r x : Word) (m : Nat), s.fault = none → m = s.multi.toNat →
      exec (.encNormal t b q r) s = .next (answered s .ok [x]) →
        (b.toNat / (128 * m) < 2 ^ 20 → ∃ w : Word, exec (.decBytes x) s = .next (answered s .ok [w]) ∧
            w.toNat = b.toNat / (128 * m) * (128 * m)) ∧
          (q.toNat / (80 * m) < 2 ^ 17 → ∃ w : Word, exec (.decQlen x) s = .next (answered s .ok [w]) ∧
            w.toNat = q.toNat / (80 * m) * (80 * m)) ∧
          (∃ w : Word, exec (.decTime x) s = .next (answered s .ok [w]) ∧ w.toNat = t.toNat % 2 ^ 24) ∧
          exec (.decRate x) s = .next (answered s .ok [r])

/-- R153: no codec command reads `MODE`: in any other mode it gives the same answer and the same state but for `MODE`. -/
def Obligations.CodecCommandsIgnoreTheMode : Prop :=
  ∀ (i : Instr) (s t : State) (m : Mode), codecCommand i = true → exec i s = .next t →
    exec i { s with mode := m } = .next { t with mode := m }

/-! ### The header and the ring -/

/-- R170: HDR_CLEAR makes the header fresh, in every mode, and touches nothing else. -/
def Obligations.HdrClearMakesTheHeaderFresh : Prop :=
  SpelledBy .hdrClear 0x00000020 [] ∧
    ∀ s : State, s.fault = none → ∃ v : Vector Word 5, (∀ j : Fin 5, v[j] = 0) ∧
      exec .hdrClear s = .next (answered { s with slots := v, nhop := 0 } .ok [])

/-- R171: the wire size under the current mode. -/
def Obligations.StaticSizeFollowsTheMode : Prop :=
  SpelledBy .staticSize 0x00000021 [] ∧
    ∀ s : State, s.fault = none → ∃ w : Word, exec .staticSize s = .next (answered s .ok [w]) ∧ w.toNat = wireSize s ∧
      wireSize s = match s.mode with
        | .disabled => 0
        | .normal | .portTrace => 42
        | .timestamp => 8
        | .compressedPower => (pwidthCode s.pwidth).toNat

/-- R172: PUSH_HOP by mode. -/
def Obligations.PushHopWritesTheSlotAtNhopModFive : Prop :=
  (∀ a b c d e, SpelledBy (.pushHop a b c d e) 0x00000022 [a, b, c, d, e]) ∧
    ∀ (s : State) (a b c d e : Word), s.fault = none →
      (s.mode = .normal → ∀ k : BitVec 3, k.toNat ≤ 4 → rateOf k = d →
          ∃ x v, IsRecordOf s a b c k x ∧ (∀ j : Fin 5, v[j] = if j.val = s.nhop.toNat % 5 then x else s.slots[j]) ∧
            exec (.pushHop a b c d e) s =
              .next (answered { s with slots := v, nhop := BitVec.ofNat 16 (s.nhop.toNat + 1) } .ok [])) ∧
        (s.mode = .normal → (∀ k : BitVec 3, k.toNat ≤ 4 → rateOf k ≠ d) →
          exec (.pushHop a b c d e) s = .next (answered s .errRate [])) ∧
        (s.mode = .portTrace →
          ∃ v, (∀ j : Fin 5, v[j] = if j.val = s.nhop.toNat % 5 then e else s.slots[j]) ∧
            exec (.pushHop a b c d e) s =
              .next (answered { s with slots := v, nhop := BitVec.ofNat 16 (s.nhop.toNat + 1) } .ok [])) ∧
        (s.mode ≠ .normal → s.mode ≠ .portTrace → exec (.pushHop a b c d e) s = .next (answered s .ok []))

/-- R173, R174: GET_NHOP and READ_SLOT, in every mode. -/
def Obligations.NhopAndSlotsAreReadInEveryMode : Prop :=
  SpelledBy .getNhop 0x00000023 [] ∧
    (∀ k : BitVec 3, SpelledBy (.readSlot k) (BitVec.ofNat 32 (0x24 + k.toNat * 0x100)) []) ∧
    ∀ s : State, s.fault = none →
      (∃ w : Word, exec .getNhop s = .next (answered s .ok [w]) ∧ w.toNat = s.nhop.toNat) ∧
        (∀ (k : BitVec 3) (j : Fin 5), k.toNat = j.val → exec (.readSlot k) s = .next (answered s .ok [s.slots[j]])) ∧
        ∀ k : BitVec 3, 5 ≤ k.toNat → exec (.readSlot k) s = .next (answered s .errSlot [0])

/-- R52, R175, R176: the timestamp accessors, and their default and no-op outside Timestamp mode. The default 0 is the
spec's decision D21 (K5). -/
def Obligations.TimestampAccessorsAreModeGated : Prop :=
  SpelledBy .getTs 0x00000025 [] ∧ (∀ a, SpelledBy (.setTs a) 0x00000026 [a]) ∧
    ∀ (s : State) (a : Word), s.fault = none →
      (s.mode = .timestamp →
          exec .getTs s = .next (answered s .ok [s.slots[0]]) ∧
            ∃ v, v[0] = a ∧ (∀ j : Fin 5, j ≠ 0 → v[j] = s.slots[j]) ∧
              exec (.setTs a) s = .next (answered { s with slots := v } .ok [])) ∧
        (s.mode ≠ .timestamp →
          exec .getTs s = .next (answered s .ok [0]) ∧ exec (.setTs a) s = .next (answered s .ok []))

/-- R53, R177, R178: the power accessors read and write the low `PWIDTH` bytes of `SLOT[0]` and no other bit, and
outside CompressedPower mode give 0 and do nothing. The default 0 is the spec's decision D21 (K5). -/
def Obligations.PowerAccessorsUseTheLowBytesOfSlotZero : Prop :=
  SpelledBy .getPower 0x00000027 [] ∧ (∀ a, SpelledBy (.setPower a) 0x00000028 [a]) ∧
    ∀ (s : State) (a : Word) (n : Nat), s.fault = none → n = (pwidthCode s.pwidth).toNat →
      (s.mode = .compressedPower →
          (∃ w : Word, exec .getPower s = .next (answered s .ok [w]) ∧ w.toNat = s.slots[0].toNat % 2 ^ (8 * n)) ∧
            ∃ v, v[0].toNat = s.slots[0].toNat / 2 ^ (8 * n) * 2 ^ (8 * n) + a.toNat % 2 ^ (8 * n) ∧
              (∀ j : Fin 5, j ≠ 0 → v[j] = s.slots[j]) ∧
              exec (.setPower a) s = .next (answered { s with slots := v } .ok [])) ∧
        (s.mode ≠ .compressedPower →
          exec .getPower s = .next (answered s .ok [0]) ∧ exec (.setPower a) s = .next (answered s .ok []))

/-- R179: the ring law. From a fresh header, after any commands that write the storage by pushes alone, `NHOP` is the
number of successful pushes modulo 2^16, and up to 2^16 pushes slot `i` holds push `k - 1 - ((k - 1 - i) mod 5)`, or 0
if none reached it. The next push goes to slot `(k mod 2^16) mod 5`. The spec marks this rule as derived, from R172
and R170. -/
def Obligations.RingHoldsTheLastPushes : Prop :=
  ∀ (s t : State) (xs : List Word), FreshHeader s → PushRun s xs t →
    t.nhop.toNat = xs.length % 2 ^ 16 ∧
      (∀ i x u, Pushes t i x → exec i t = .next u →
        ∀ j : Fin 5, u.slots[j] = if j.val = xs.length % 2 ^ 16 % 5 then x else t.slots[j]) ∧
      (xs.length ≤ 2 ^ 16 → ∀ j : Fin 5,
        (j.val < xs.length → xs[xs.length - 1 - (xs.length - 1 - j.val) % 5]? = some t.slots[j]) ∧
          (xs.length ≤ j.val → t.slots[j] = 0))

/-- R30: after five or more pushes and before `NHOP` wraps, the slot at `NHOP mod 5` holds the oldest record kept. The
spec marks this rule as derived, from R29 and R172. -/
def Obligations.OldestRecordIsAtNhopModFive : Prop :=
  ∀ (s t : State) (xs : List Word) (j : Fin 5), FreshHeader s → PushRun s xs t → 5 ≤ xs.length →
    xs.length < 2 ^ 16 → j.val = t.nhop.toNat % 5 → xs[xs.length - 5]? = some t.slots[j]

/-- R180: the push made with `NHOP` = 65535 and the one after it both write slot 0. The spec marks this rule as
derived, from R172. -/
def Obligations.NhopWrapWritesSlotZeroTwice : Prop :=
  ∀ (s t u : State) (i k : Instr) (x y : Word), s.nhop.toNat = 65535 → Pushes s i x → exec i s = .next t →
    Pushes t k y → exec k t = .next u →
      t.nhop = 0 ∧ u.nhop = 1 ∧ t.slots[0] = x ∧ u.slots[0] = y ∧
        ∀ j : Fin 5, j ≠ 0 → t.slots[j] = s.slots[j] ∧ u.slots[j] = s.slots[j]

/-! ### Serialize and deserialize -/

/-- R200 to R204: SERIALIZE appends the wire image of the current mode, answers its length, and changes nothing else. -/
def Obligations.SerializeAppendsTheWireImage : Prop :=
  SpelledBy .serialize 0x00000030 [] ∧
    ∀ s : State, s.fault = none → ∃ w n, IsWireImage s w ∧ n.toNat = w.length ∧
      exec .serialize s = .next (answered { s with outq := s.outq ++ w } .ok [n])

/-- R205, R226: DESERIALIZE takes the wire image from the front of `INQ` into the current mode's view of the storage, keeps
every other bit and the bytes that follow, and answers the length; with too few bytes it raises the fault. -/
def Obligations.DeserializeLoadsTheWireImage : Prop :=
  SpelledBy .deserialize 0x00000031 [] ∧
    ∀ s : State, s.fault = none →
      (∀ w rest, s.inq = w ++ rest → w.length = wireSize s →
          ∃ v k n, IsWireImage { s with slots := v, nhop := k } w ∧
            SameOutsidePayload s { s with slots := v, nhop := k } ∧ n.toNat = w.length ∧
            exec .deserialize s = .next (answered { s with slots := v, nhop := k, inq := rest } .ok [n])) ∧
        (s.inq.length < wireSize s → exec .deserialize s = .next { s with fault := some .cursorUnderrun })

/-- R207: the round trip through the streams, in every mode. The spec marks this rule as derived, from R204 and R205.
-/
def Obligations.SerializeThenDeserializeRestoresThePayload : Prop :=
  ∀ (s t u : State) (w rest : List Byte), s.fault = none → t.fault = none → t.mode = s.mode → t.pwidth = s.pwidth →
    exec .serialize s = .next u → u.outq = s.outq ++ w → t.inq = w ++ rest →
      ∃ v k n, exec .deserialize t = .next (answered { t with slots := v, nhop := k, inq := rest } .ok [n]) ∧
        SamePayload s { t with slots := v, nhop := k } ∧ SameOutsidePayload t { t with slots := v, nhop := k }

/-- R208: both commands move exactly `staticSize()` bytes and answer that count, or DESERIALIZE faults. The spec marks
this rule as derived, from R204, R205 and R171. -/
def Obligations.StaticSizeIsTheByteCountMoved : Prop :=
  (∀ s t : State, exec .serialize s = .next t →
      t.outq.length = s.outq.length + wireSize s ∧
        ∃ n, t = answered { s with outq := t.outq } .ok [n] ∧ n.toNat = wireSize s) ∧
    ∀ s t : State, exec .deserialize s = .next t →
      (t = { s with fault := some .cursorUnderrun } ∧ s.inq.length < wireSize s) ∨
        (t.inq = s.inq.drop (wireSize s) ∧ wireSize s ≤ s.inq.length ∧
          ∃ n, t.responses = s.responses ++ [{ status := .ok, results := [n] }] ∧ n.toNat = wireSize s)

/-! ### Rules about every command -/

/-- R60: the reading commands and the codec commands change no state and no stream; SERIALIZE appends to `OUTQ` and changes
nothing else, and a second one appends the same bytes again; DESERIALIZE consumes `INQ`. -/
def Obligations.ReadingCommandsOnlyAnswer : Prop :=
  (∀ (i : Instr) (s t : State), onlyAnswers i = true → exec i s = .next t → ∃ st rs, t = answered s st rs) ∧
    (∀ s t u : State, exec .serialize s = .next t → exec .serialize t = .next u → ∃ w rs,
      t = answered { s with outq := s.outq ++ w } .ok rs ∧ u = answered { t with outq := t.outq ++ w } .ok rs) ∧
    ∀ s t : State, exec .deserialize s = .next t → t.fault = none → t.inq = s.inq.drop (wireSize s)

/-- R86: the number of result words is fixed by the opcode, whatever the status, and on an error each of them is 0; a
faulting command gives no response; an illegal one is answered with no result words. -/
def Obligations.ResponseCarriesTheOpcodesResultCount : Prop :=
  (∀ (i : Instr) (s t : State), exec i s = .next t →
      (t.fault = none → ∃ r, t.responses = s.responses ++ [r] ∧ r.results.length = resultCount i ∧
        r.status ≠ .errIllegal ∧ (r.status ≠ .ok → ∀ w ∈ r.results, w = 0)) ∧
      (t.fault ≠ none → t.responses = s.responses)) ∧
    ∀ (s t : State) (c : Command) (rest : List HostAction), s.host = .issue c :: rest → c.legal = false →
      step s = .next t → t.responses = s.responses ++ [{ status := .errIllegal, results := [] }]

/-- R220: the status codes, which commands raise which, and that a command with a status other than `OK` changes no state
and no stream. -/
def Obligations.ErrorStatusesChangeNothing : Prop :=
  (statusCode .ok = 0x00 ∧ statusCode .errIllegal = 0x01 ∧ statusCode .errSlot = 0x02 ∧ statusCode .errCfg = 0x03 ∧
      statusCode .errRate = 0x04) ∧
    ∀ (i : Instr) (s t : State) (r : Response), exec i s = .next t → t.responses = s.responses ++ [r] →
      r.status ≠ .ok →
        t = answered s r.status r.results ∧
          ((r.status = .errSlot ∧ ∃ k : BitVec 3, i = .readSlot k ∧ 5 ≤ k.toNat) ∨
            (r.status = .errCfg ∧ ∃ a, i = .setMode a ∨ i = .setPwidth a ∨ i = .setMulti a) ∨
            (r.status = .errRate ∧ ∃ a b c d, i = .encNormal a b c d ∨
              (s.mode = .normal ∧ ∃ e, i = .pushHop a b c d e)))

/-- R21, R22, R23: `MODE`, `PWIDTH` and `MULTI` are written by their own commands alone. -/
def Obligations.ConfigurationIsWrittenOnlyByItsSetters : Prop :=
  ∀ (i : Instr) (s t : State), exec i s = .next t →
    (t.mode ≠ s.mode → ∃ a, i = .setMode a) ∧ (t.pwidth ≠ s.pwidth → ∃ a, i = .setPwidth a) ∧
      (t.multi ≠ s.multi → ∃ a, i = .setMulti a)

/-- R29: `NHOP` is written by PUSH_HOP, which increments it modulo 2^16, by DESERIALIZE in Normal or PortTrace mode, which
loads it from bytes 40 and 41 of `INQ`, and by HDR_CLEAR and reset, which set it to 0; by nothing else. -/
def Obligations.NhopIsWrittenInFourWaysOnly : Prop :=
  (∀ (i : Instr) (s t : State), exec i s = .next t → t.nhop ≠ s.nhop →
      ((∃ a b c d e, i = .pushHop a b c d e) ∧ t.nhop.toNat = (s.nhop.toNat + 1) % 2 ^ 16) ∨
        (i = .deserialize ∧ (s.mode = .normal ∨ s.mode = .portTrace) ∧ HasByte s.inq 40 t.nhop.toNat 0 ∧
          HasByte s.inq 40 t.nhop.toNat 1) ∨ (i = .hdrClear ∧ t.nhop = 0)) ∧
    ∀ s t : State, step s = .next t → t.nhop ≠ s.nhop →
      (s.host.head? = some .reset ∧ t.nhop = 0) ∨ ∃ c i, s.host.head? = some (.issue c) ∧ decode c = .ok i

/-- R52, R53, R170, R172, R176, R178, R204, R205: each slot and each stream is written by its own commands alone. Slot `j`
is written by a push while `NHOP mod 5` is `j`, by HDR_CLEAR, and by DESERIALIZE in a mode with a ring; slot 0 beside these by
DESERIALIZE and by the setter of the two modes whose payload is in slot 0. -/
def Obligations.SlotsAndStreamsAreWrittenOnlyByTheirCommands : Prop :=
  ∀ (i : Instr) (s t : State), exec i s = .next t →
    (∀ j : Fin 5, t.slots[j] ≠ s.slots[j] →
        ((∃ a b c d e, i = .pushHop a b c d e) ∧ (s.mode = .normal ∨ s.mode = .portTrace) ∧
            j.val = s.nhop.toNat % 5) ∨
          i = .hdrClear ∨ (i = .deserialize ∧ (s.mode = .normal ∨ s.mode = .portTrace)) ∨
          (j = 0 ∧ s.mode = .timestamp ∧ (i = .deserialize ∨ ∃ a, i = .setTs a)) ∨
          (j = 0 ∧ s.mode = .compressedPower ∧ (i = .deserialize ∨ ∃ a, i = .setPower a))) ∧
      (t.outq ≠ s.outq → i = .serialize) ∧ (t.inq ≠ s.inq → i = .deserialize)

/-- R23, R33, R86: every step keeps the invariant, from every state that meets it. -/
def Obligations.StepKeepsTheInvariant : Prop := ∀ s t : State, Inv s → step s = .next t → Inv t

/-- R23, R33, R86: the invariant holds after reset. -/
def Obligations.ResetMeetsTheInvariant : Prop := Inv State.reset

/-! ### The end of a run -/

/-- R264: a reset starts a run. While `FAULT` is none, `CI` and the commands left add up to the length of the host's sequence,
so the run ends normally exactly where `FAULT` is none and no command is left, whatever the host lists after the last
command; it then has a response to each command. A faulted state is no normal end and is stuck. That the host's actions are a
list, and that a reset in it begins another run, is the model's choice (assumptions 2 and 12). -/
def Obligations.RunEndsNormallyWhenItsCommandsAreCompleted : Prop :=
  (∀ (s : State) (rest : List HostAction), s.host = .reset :: rest → step s = .next (runStart s.params rest)) ∧
    ∀ (p : Params) (actions : List HostAction) (s : State), InRun p actions s →
      (s.fault = none → s.ci + commandsToCome s.host = commandsToCome actions) ∧
        (endsNormally (commandsToCome actions) s = true ↔ s.fault = none ∧ commandsToCome s.host = 0) ∧
        (endsNormally (commandsToCome actions) s = true →
          (observe s).responses.length = commandsToCome actions) ∧
        (s.fault ≠ none → stuck s = true ∧ endsNormally (commandsToCome actions) s = false)
end

