-- ==== Sys2Proof/Laws/Decode.lean ====
section
/-! SUPPORT. The fields of a command word as numbers, what the decoder does with a word built by the encoder, and exactly
when the opcode map accepts an operand list. -/

namespace Sys2Proof

theorem Command.rsvd_toNat (c : Command) : c.rsvd.toNat = c.word.toNat / 2 ^ 11 := by
  have := c.word.isLt
  simp only [Command.rsvd, BitVec.extractLsb'_toNat, Nat.shiftRight_eq_div_pow]
  omega

theorem Command.slot_toNat (c : Command) : c.slot.toNat = c.word.toNat / 2 ^ 8 % 2 ^ 3 := by
  simp only [Command.slot, BitVec.extractLsb'_toNat, Nat.shiftRight_eq_div_pow]

theorem Command.opc_toNat (c : Command) : c.opc.toNat = c.word.toNat % 2 ^ 8 := by
  simp only [Command.opc, BitVec.extractLsb'_toNat, Nat.shiftRight_eq_div_pow, Nat.pow_zero, Nat.div_one]

theorem Command.rsvd_eq_zero (c : Command) : c.rsvd = 0 ↔ c.word.toNat / 2 ^ 11 = 0 := by
  rw [← c.rsvd_toNat, ← BitVec.toNat_inj]
  simp

theorem Command.slot_eq_zero (c : Command) : c.slot = 0 ↔ c.word.toNat / 2 ^ 8 % 2 ^ 3 = 0 := by
  rw [← c.slot_toNat, ← BitVec.toNat_inj]
  simp

theorem Command.opc_eq_readSlot (c : Command) : c.opc = 0x24 ↔ c.word.toNat % 2 ^ 8 = 0x24 := by
  rw [← c.opc_toNat, ← BitVec.toNat_inj]
  simp

theorem commandWord_toNat (i : BitVec 3) (o : BitVec 8) :
    (commandWord i o).toNat = i.toNat * 2 ^ 8 + o.toNat := by
  simp only [commandWord, BitVec.toNat_append]
  rw [← Nat.shiftLeft_add_eq_or_of_lt o.isLt]
  simp [Nat.shiftLeft_eq]

@[simp] theorem rsvd_commandWord (i : BitVec 3) (o : BitVec 8) (ops : List Word) :
    Command.rsvd { word := commandWord i o, operands := ops } = 0 := by
  have hi := i.isLt
  have ho := o.isLt
  rw [Command.rsvd_eq_zero, commandWord_toNat]
  omega

@[simp] theorem slot_commandWord (i : BitVec 3) (o : BitVec 8) (ops : List Word) :
    Command.slot { word := commandWord i o, operands := ops } = i := by
  have hi := i.isLt
  have ho := o.isLt
  apply BitVec.eq_of_toNat_eq
  rw [Command.slot_toNat, commandWord_toNat]
  omega

@[simp] theorem opc_commandWord (i : BitVec 3) (o : BitVec 8) (ops : List Word) :
    Command.opc { word := commandWord i o, operands := ops } = o := by
  have ho := o.isLt
  apply BitVec.eq_of_toNat_eq
  rw [Command.opc_toNat, commandWord_toNat]
  omega

/-- What the decoder does with a word of the encoder's form. -/
theorem decode_commandWord (i : BitVec 3) (o : BitVec 8) (ops : List Word) :
    decode { word := commandWord i o, operands := ops } =
      if i = 0 ∨ o = 0x24 then decodeOpcode o i ops else .error .slot := by
  simp [decode]

/-- A word with a zero reserved field is the encoder's word of its own fields. -/
theorem commandWord_of_rsvd (c : Command) (h : c.rsvd = 0) : commandWord c.slot c.opc = c.word := by
  rw [Command.rsvd_eq_zero] at h
  apply BitVec.eq_of_toNat_eq
  rw [commandWord_toNat, Command.slot_toNat, Command.opc_toNat]
  omega

/-- Once `RSVD` and `SLOT` are in order, the decoder is the opcode map. -/
theorem decode_eq_decodeOpcode (c : Command) (hr : c.rsvd = 0) (hs : c.slot = 0 ∨ c.opc = 0x24) :
    decode c = decodeOpcode c.opc c.slot c.operands := by
  simp only [decode, if_pos hr, if_pos hs]

/-- What a transaction that decodes has in its fields. -/
theorem decode_ok_fields {c : Command} {i : Instr} (h : decode c = .ok i) :
    c.rsvd = 0 ∧ (c.slot = 0 ∨ c.opc = 0x24) ∧ decodeOpcode c.opc c.slot c.operands = .ok i := by
  simp only [decode] at h
  split at h <;> [skip; cases h]
  split at h <;> [skip; cases h]
  exact ⟨‹_›, ‹_›, h⟩

/-- The opcode map accepts an opcode's own operand count and nothing else. -/
theorem decodeOpcode_ok_iff (o : BitVec 8) (i : BitVec 3) (ops : List Word) :
    (∃ j, decodeOpcode o i ops = .ok j) ↔ operandCount? o.toNat = some ops.length := by
  unfold decodeOpcode
  split
  case h_28 =>
    constructor
    · rintro ⟨j, h⟩
      cases h
    · intro h
      unfold operandCount? at h
      repeat' split at h
      all_goals simp_all
  all_goals
    rename_i ho
    rw [ho]
    simp only [takeF0, takeF1, takeF2, takeF4, takeF5, operandCount?]
    rcases ops with _ | ⟨a, _ | ⟨b, _ | ⟨c, _ | ⟨d, _ | ⟨e, _ | ⟨f, r⟩⟩⟩⟩⟩⟩ <;> simp

end Sys2Proof
end

