-- ==== Sys2Proof/Laws/State.lean ====
section
/-! SUPPORT. One lemma per field per update of the state, and the operations that are the same update under another name,
brought to `answered`. -/

namespace Sys2Proof.Machine

/-! ### respond -/

@[simp] theorem respond_params (s : State) (r : Response) : (respond s r).params = s.params := rfl
@[simp] theorem respond_mode (s : State) (r : Response) : (respond s r).mode = s.mode := rfl
@[simp] theorem respond_pwidth (s : State) (r : Response) : (respond s r).pwidth = s.pwidth := rfl
@[simp] theorem respond_multi (s : State) (r : Response) : (respond s r).multi = s.multi := rfl
@[simp] theorem respond_slots (s : State) (r : Response) : (respond s r).slots = s.slots := rfl
@[simp] theorem respond_nhop (s : State) (r : Response) : (respond s r).nhop = s.nhop := rfl
@[simp] theorem respond_fault (s : State) (r : Response) : (respond s r).fault = s.fault := rfl
@[simp] theorem respond_inq (s : State) (r : Response) : (respond s r).inq = s.inq := rfl
@[simp] theorem respond_outq (s : State) (r : Response) : (respond s r).outq = s.outq := rfl
@[simp] theorem respond_ci (s : State) (r : Response) : (respond s r).ci = s.ci + 1 := rfl
@[simp] theorem respond_responses (s : State) (r : Response) : (respond s r).responses = s.responses ++ [r] := rfl
@[simp] theorem respond_host (s : State) (r : Response) : (respond s r).host = s.host := rfl

/-! ### answered -/

@[simp] theorem answered_params (s : State) (st : Status) (rs : List Word) : (answered s st rs).params = s.params := rfl
@[simp] theorem answered_mode (s : State) (st : Status) (rs : List Word) : (answered s st rs).mode = s.mode := rfl
@[simp] theorem answered_pwidth (s : State) (st : Status) (rs : List Word) : (answered s st rs).pwidth = s.pwidth := rfl
@[simp] theorem answered_multi (s : State) (st : Status) (rs : List Word) : (answered s st rs).multi = s.multi := rfl
@[simp] theorem answered_slots (s : State) (st : Status) (rs : List Word) : (answered s st rs).slots = s.slots := rfl
@[simp] theorem answered_nhop (s : State) (st : Status) (rs : List Word) : (answered s st rs).nhop = s.nhop := rfl
@[simp] theorem answered_fault (s : State) (st : Status) (rs : List Word) : (answered s st rs).fault = s.fault := rfl
@[simp] theorem answered_inq (s : State) (st : Status) (rs : List Word) : (answered s st rs).inq = s.inq := rfl
@[simp] theorem answered_outq (s : State) (st : Status) (rs : List Word) : (answered s st rs).outq = s.outq := rfl
@[simp] theorem answered_ci (s : State) (st : Status) (rs : List Word) : (answered s st rs).ci = s.ci + 1 := rfl
@[simp] theorem answered_responses (s : State) (st : Status) (rs : List Word) : (answered s st rs).responses = s.responses ++ [{ status := st, results := rs }] := rfl
@[simp] theorem answered_host (s : State) (st : Status) (rs : List Word) : (answered s st rs).host = s.host := rfl

/-! ### raiseFault -/

@[simp] theorem raiseFault_params (s : State) (f : Fault) : (raiseFault s f).params = s.params := rfl
@[simp] theorem raiseFault_mode (s : State) (f : Fault) : (raiseFault s f).mode = s.mode := rfl
@[simp] theorem raiseFault_pwidth (s : State) (f : Fault) : (raiseFault s f).pwidth = s.pwidth := rfl
@[simp] theorem raiseFault_multi (s : State) (f : Fault) : (raiseFault s f).multi = s.multi := rfl
@[simp] theorem raiseFault_slots (s : State) (f : Fault) : (raiseFault s f).slots = s.slots := rfl
@[simp] theorem raiseFault_nhop (s : State) (f : Fault) : (raiseFault s f).nhop = s.nhop := rfl
@[simp] theorem raiseFault_fault (s : State) (f : Fault) : (raiseFault s f).fault = some f := rfl
@[simp] theorem raiseFault_inq (s : State) (f : Fault) : (raiseFault s f).inq = s.inq := rfl
@[simp] theorem raiseFault_outq (s : State) (f : Fault) : (raiseFault s f).outq = s.outq := rfl
@[simp] theorem raiseFault_ci (s : State) (f : Fault) : (raiseFault s f).ci = s.ci := rfl
@[simp] theorem raiseFault_responses (s : State) (f : Fault) : (raiseFault s f).responses = s.responses := rfl
@[simp] theorem raiseFault_host (s : State) (f : Fault) : (raiseFault s f).host = s.host := rfl

/-! ### pushSlot -/

@[simp] theorem pushSlot_params (s : State) (x : Word) : (pushSlot s x).params = s.params := rfl
@[simp] theorem pushSlot_mode (s : State) (x : Word) : (pushSlot s x).mode = s.mode := rfl
@[simp] theorem pushSlot_pwidth (s : State) (x : Word) : (pushSlot s x).pwidth = s.pwidth := rfl
@[simp] theorem pushSlot_multi (s : State) (x : Word) : (pushSlot s x).multi = s.multi := rfl
@[simp] theorem pushSlot_slots (s : State) (x : Word) : (pushSlot s x).slots = s.slots.set (pushIndex s) x (pushIndex_lt s) := rfl
@[simp] theorem pushSlot_nhop (s : State) (x : Word) : (pushSlot s x).nhop = s.nhop + 1 := rfl
@[simp] theorem pushSlot_fault (s : State) (x : Word) : (pushSlot s x).fault = s.fault := rfl
@[simp] theorem pushSlot_inq (s : State) (x : Word) : (pushSlot s x).inq = s.inq := rfl
@[simp] theorem pushSlot_outq (s : State) (x : Word) : (pushSlot s x).outq = s.outq := rfl
@[simp] theorem pushSlot_ci (s : State) (x : Word) : (pushSlot s x).ci = s.ci := rfl
@[simp] theorem pushSlot_responses (s : State) (x : Word) : (pushSlot s x).responses = s.responses := rfl
@[simp] theorem pushSlot_host (s : State) (x : Word) : (pushSlot s x).host = s.host := rfl

/-! ### setTimestamp -/

@[simp] theorem setTimestamp_params (s : State) (v : Word) : (setTimestamp s v).params = s.params := rfl
@[simp] theorem setTimestamp_mode (s : State) (v : Word) : (setTimestamp s v).mode = s.mode := rfl
@[simp] theorem setTimestamp_pwidth (s : State) (v : Word) : (setTimestamp s v).pwidth = s.pwidth := rfl
@[simp] theorem setTimestamp_multi (s : State) (v : Word) : (setTimestamp s v).multi = s.multi := rfl
@[simp] theorem setTimestamp_slots (s : State) (v : Word) : (setTimestamp s v).slots = s.slots.set 0 v := rfl
@[simp] theorem setTimestamp_nhop (s : State) (v : Word) : (setTimestamp s v).nhop = s.nhop := rfl
@[simp] theorem setTimestamp_fault (s : State) (v : Word) : (setTimestamp s v).fault = s.fault := rfl
@[simp] theorem setTimestamp_inq (s : State) (v : Word) : (setTimestamp s v).inq = s.inq := rfl
@[simp] theorem setTimestamp_outq (s : State) (v : Word) : (setTimestamp s v).outq = s.outq := rfl
@[simp] theorem setTimestamp_ci (s : State) (v : Word) : (setTimestamp s v).ci = s.ci := rfl
@[simp] theorem setTimestamp_responses (s : State) (v : Word) : (setTimestamp s v).responses = s.responses := rfl
@[simp] theorem setTimestamp_host (s : State) (v : Word) : (setTimestamp s v).host = s.host := rfl

/-! ### setPowerValue -/

@[simp] theorem setPowerValue_params (s : State) (v : Word) : (setPowerValue s v).params = s.params := rfl
@[simp] theorem setPowerValue_mode (s : State) (v : Word) : (setPowerValue s v).mode = s.mode := rfl
@[simp] theorem setPowerValue_pwidth (s : State) (v : Word) : (setPowerValue s v).pwidth = s.pwidth := rfl
@[simp] theorem setPowerValue_multi (s : State) (v : Word) : (setPowerValue s v).multi = s.multi := rfl
@[simp] theorem setPowerValue_slots (s : State) (v : Word) : (setPowerValue s v).slots = s.slots.set 0 (withPowerBits s.pwidth s.slots[0] v) := rfl
@[simp] theorem setPowerValue_nhop (s : State) (v : Word) : (setPowerValue s v).nhop = s.nhop := rfl
@[simp] theorem setPowerValue_fault (s : State) (v : Word) : (setPowerValue s v).fault = s.fault := rfl
@[simp] theorem setPowerValue_inq (s : State) (v : Word) : (setPowerValue s v).inq = s.inq := rfl
@[simp] theorem setPowerValue_outq (s : State) (v : Word) : (setPowerValue s v).outq = s.outq := rfl
@[simp] theorem setPowerValue_ci (s : State) (v : Word) : (setPowerValue s v).ci = s.ci := rfl
@[simp] theorem setPowerValue_responses (s : State) (v : Word) : (setPowerValue s v).responses = s.responses := rfl
@[simp] theorem setPowerValue_host (s : State) (v : Word) : (setPowerValue s v).host = s.host := rfl

/-! ### clearHeader -/

@[simp] theorem clearHeader_params (s : State) : (clearHeader s).params = s.params := rfl
@[simp] theorem clearHeader_mode (s : State) : (clearHeader s).mode = s.mode := rfl
@[simp] theorem clearHeader_pwidth (s : State) : (clearHeader s).pwidth = s.pwidth := rfl
@[simp] theorem clearHeader_multi (s : State) : (clearHeader s).multi = s.multi := rfl
@[simp] theorem clearHeader_slots (s : State) : (clearHeader s).slots = Vector.replicate maxHop 0 := rfl
@[simp] theorem clearHeader_nhop (s : State) : (clearHeader s).nhop = 0 := rfl
@[simp] theorem clearHeader_fault (s : State) : (clearHeader s).fault = s.fault := rfl
@[simp] theorem clearHeader_inq (s : State) : (clearHeader s).inq = s.inq := rfl
@[simp] theorem clearHeader_outq (s : State) : (clearHeader s).outq = s.outq := rfl
@[simp] theorem clearHeader_ci (s : State) : (clearHeader s).ci = s.ci := rfl
@[simp] theorem clearHeader_responses (s : State) : (clearHeader s).responses = s.responses := rfl
@[simp] theorem clearHeader_host (s : State) : (clearHeader s).host = s.host := rfl

/-! ### prependAction -/

@[simp] theorem prependAction_params (a : HostAction) (s : State) : (prependAction a s).params = s.params := rfl
@[simp] theorem prependAction_mode (a : HostAction) (s : State) : (prependAction a s).mode = s.mode := rfl
@[simp] theorem prependAction_pwidth (a : HostAction) (s : State) : (prependAction a s).pwidth = s.pwidth := rfl
@[simp] theorem prependAction_multi (a : HostAction) (s : State) : (prependAction a s).multi = s.multi := rfl
@[simp] theorem prependAction_slots (a : HostAction) (s : State) : (prependAction a s).slots = s.slots := rfl
@[simp] theorem prependAction_nhop (a : HostAction) (s : State) : (prependAction a s).nhop = s.nhop := rfl
@[simp] theorem prependAction_fault (a : HostAction) (s : State) : (prependAction a s).fault = s.fault := rfl
@[simp] theorem prependAction_inq (a : HostAction) (s : State) : (prependAction a s).inq = s.inq := rfl
@[simp] theorem prependAction_outq (a : HostAction) (s : State) : (prependAction a s).outq = s.outq := rfl
@[simp] theorem prependAction_ci (a : HostAction) (s : State) : (prependAction a s).ci = s.ci := rfl
@[simp] theorem prependAction_responses (a : HostAction) (s : State) : (prependAction a s).responses = s.responses := rfl
@[simp] theorem prependAction_host (a : HostAction) (s : State) : (prependAction a s).host = a :: s.host := rfl

/-! ### resetBy -/

@[simp] theorem resetBy_params (s : State) : (resetBy s).params = s.params := rfl
@[simp] theorem resetBy_mode (s : State) : (resetBy s).mode = .disabled := rfl
@[simp] theorem resetBy_pwidth (s : State) : (resetBy s).pwidth = .twoBytes := rfl
@[simp] theorem resetBy_multi (s : State) : (resetBy s).multi = 1 := rfl
@[simp] theorem resetBy_slots (s : State) : (resetBy s).slots = Vector.replicate maxHop 0 := rfl
@[simp] theorem resetBy_nhop (s : State) : (resetBy s).nhop = 0 := rfl
@[simp] theorem resetBy_fault (s : State) : (resetBy s).fault = none := rfl
@[simp] theorem resetBy_inq (s : State) : (resetBy s).inq = [] := rfl
@[simp] theorem resetBy_outq (s : State) : (resetBy s).outq = [] := rfl
@[simp] theorem resetBy_ci (s : State) : (resetBy s).ci = 0 := rfl
@[simp] theorem resetBy_responses (s : State) : (resetBy s).responses = [] := rfl
@[simp] theorem resetBy_host (s : State) : (resetBy s).host = s.host := rfl

/-! ### commandsToCome -/

@[simp] theorem commandsToCome_nil : commandsToCome [] = 0 := rfl
@[simp] theorem commandsToCome_issue (c : Command) (rest : List HostAction) :
    commandsToCome (.issue c :: rest) = commandsToCome rest + 1 := rfl
@[simp] theorem commandsToCome_fill (bytes : List Byte) (rest : List HostAction) :
    commandsToCome (.fill bytes :: rest) = commandsToCome rest := rfl
@[simp] theorem commandsToCome_drain (n : Nat) (rest : List HostAction) :
    commandsToCome (.drain n :: rest) = commandsToCome rest := rfl
@[simp] theorem commandsToCome_reset (rest : List HostAction) : commandsToCome (.reset :: rest) = 0 := rfl

theorem endsNormally_iff {n : Nat} {s : State} : endsNormally n s = true ↔ s.ci = n ∧ s.fault = none := by
  simp [endsNormally]

/-! ### Completed commands -/

@[simp] theorem respond_eq_answered (s : State) (r : Response) : respond s r = answered s r.status r.results := rfl

@[simp] theorem answerOk_eq_answered (s : State) (rs : List Word) : answerOk s rs = answered s .ok rs := rfl

@[simp] theorem answerError_eq_answered (s : State) (e : Status) (m : Nat) :
    answerError s e m = answered s e (List.replicate m 0) := rfl

@[simp] theorem answerIllegal_eq_answered (s : State) : answerIllegal s = answered s .errIllegal [] := rfl

end Sys2Proof.Machine
end

