-- ==== Sys2Proof/Laws/Ops.lean ====
section
/-! SUPPORT. What each shared operation of the machine does, said once: taking a command, the host's list, the stream
primitives, the record layout's fields, the power view. -/

namespace Sys2Proof.Machine

/-! ### Taking a command -/

theorem takeCommand_of_none {s : State} (effect : State → State) (h : s.fault = none) :
    takeCommand s effect = .next (effect s) := by
  simp [takeCommand, h]

theorem takeCommand_of_some {s : State} {f : Fault} (effect : State → State) (h : s.fault = some f) :
    takeCommand s effect = .fault f := by
  simp [takeCommand, h]

/-- Everything taking a command can do when it answers a next state. -/
theorem takeCommand_eq_next {s t : State} {effect : State → State} :
    takeCommand s effect = .next t ↔ s.fault = none ∧ effect s = t := by
  unfold takeCommand
  split <;> simp_all

/-! ### The host's list -/

theorem nextAction?_nil {s : State} (h : s.host = []) : nextAction? s = none := by
  simp [nextAction?, h]

theorem nextAction?_cons {s : State} {a : HostAction} {rest : List HostAction} (h : s.host = a :: rest) :
    nextAction? s = some (a, { s with host := rest }) := by
  simp [nextAction?, h]

/-! ### Bytes -/

@[simp] theorem leBytes_length (n v : Nat) : (leBytes n v).length = n := by
  induction n generalizing v with
  | zero => rfl
  | succ n ih => simp [leBytes, ih]

theorem leBytes_getElem? (n v k : Nat) :
    (leBytes n v)[k]? = if k < n then some (BitVec.ofNat 8 (v / 256 ^ k)) else none := by
  induction n generalizing v k with
  | zero => simp [leBytes]
  | succ n ih =>
    cases k with
    | zero => simp [leBytes]
    | succ k => simp [leBytes, ih, Nat.pow_succ', Nat.div_div_eq_div_mul]

theorem leBytes_add (m n v : Nat) : leBytes (m + n) v = leBytes m v ++ leBytes n (v / 256 ^ m) := by
  induction m generalizing v with
  | zero => simp [leBytes]
  | succ m ih =>
    rw [Nat.succ_add, leBytes, leBytes, ih, List.cons_append, Nat.pow_succ', Nat.div_div_eq_div_mul]

/-- The low `n` bytes of a value depend on it modulo `256 ^ n` alone. -/
theorem leBytes_mod (n v : Nat) : leBytes n (v % 256 ^ n) = leBytes n v := by
  apply List.ext_getElem?
  intro k
  rw [leBytes_getElem?, leBytes_getElem?]
  split <;> [skip; rfl]
  rename_i hk
  congr 1
  apply BitVec.eq_of_toNat_eq
  obtain ⟨d, rfl⟩ : ∃ d, n = k + 1 + d := ⟨n - (k + 1), by omega⟩
  simp only [BitVec.toNat_ofNat]
  have h256 : (256 : Nat) = 2 ^ 8 := by norm_num
  rw [show (256 : Nat) ^ (k + 1 + d) = 256 ^ k * (256 * 256 ^ d) by ring, Nat.mod_mul_right_div_self,
    ← h256, Nat.mod_mul_right_mod]

theorem leValue_lt (bs : List Byte) : leValue bs < 256 ^ bs.length := by
  induction bs with
  | nil => simp [leValue]
  | cons b bs ih =>
    have := b.isLt
    simp only [leValue, List.length_cons, Nat.pow_succ']
    omega

/-- Reading back the bytes of a value gives the value modulo its width. -/
theorem leValue_leBytes (n v : Nat) : leValue (leBytes n v) = v % 256 ^ n := by
  induction n generalizing v with
  | zero => simp [leBytes, leValue, Nat.mod_one]
  | succ n ih =>
    have h := Nat.mod_mul (x := v) (a := 256) (b := 256 ^ n)
    rw [leBytes, leValue, ih, BitVec.toNat_ofNat, Nat.pow_succ' (m := 256), h]

/-- Writing the value of some bytes gives the bytes back. -/
theorem leBytes_leValue (bs : List Byte) : leBytes bs.length (leValue bs) = bs := by
  induction bs with
  | nil => rfl
  | cons b bs ih =>
    have hb := b.isLt
    have hd : (b.toNat + 256 * leValue bs) / 256 = leValue bs := by omega
    have hv : BitVec.ofNat 8 (b.toNat + 256 * leValue bs) = b := by
      apply BitVec.eq_of_toNat_eq
      rw [BitVec.toNat_ofNat]
      omega
    rw [List.length_cons, leBytes, leValue, hd, hv, ih]

theorem outWrite_eq (n v : Nat) (q : List Byte) : outWrite n v q = q ++ leBytes n v := rfl

theorem inRead_append (w rest : List Byte) : inRead w.length (w ++ rest) = (leValue w, rest) := by
  simp [inRead]

/-- R57: writing a slot's halves is writing its eight bytes. -/
theorem writeSlot_eq (x : Word) (q : List Byte) : writeSlot x q = q ++ leBytes 8 x.toNat := by
  have hx := x.isLt
  have h := leBytes_add 4 4 x.toNat
  rw [← leBytes_mod 4 x.toNat] at h
  simp only [writeSlot, outWrite, BitVec.extractLsb'_toNat, Nat.shiftRight_eq_div_pow]
  have hh : x.toNat / 2 ^ 32 % 2 ^ 32 = x.toNat / 256 ^ 4 := by omega
  have hl : x.toNat / 2 ^ 0 % 2 ^ 32 = x.toNat % 256 ^ 4 := by omega
  rw [hh, hl, List.append_assoc, ← h]

/-- R205: reading a slot's halves is reading its eight bytes. -/
theorem readSlotFrom_append (w rest : List Byte) (h : w.length = 8) :
    readSlotFrom (w ++ rest) = (BitVec.ofNat 64 (leValue w), rest) := by
  obtain ⟨a, b, rfl, ha, hb⟩ : ∃ a b, w = a ++ b ∧ a.length = 4 ∧ b.length = 4 :=
    ⟨w.take 4, w.drop 4, (List.take_append_drop 4 w).symm, by simp [h], by simp [h]⟩
  have hv : leValue (a ++ b) = leValue b * 2 ^ 32 + leValue a := by
    clear h hb
    rcases a with _ | ⟨a0, _ | ⟨a1, _ | ⟨a2, _ | ⟨a3, _ | ⟨a4, r⟩⟩⟩⟩⟩ <;> simp at ha
    simp only [List.cons_append, List.nil_append, leValue]
    omega
  have h1 := inRead_append a (b ++ rest)
  have h2 := inRead_append b rest
  rw [ha] at h1
  rw [hb] at h2
  simp only [readSlotFrom, List.append_assoc, h1, h2, hv]

/-- R204: what SERIALIZE appends, as one list of bytes. -/
theorem writeHeader_eq (s : State) (q : List Byte) :
    writeHeader s q = q ++
      match s.mode with
      | .normal | .portTrace =>
        (s.slots.toList.map fun x => leBytes 8 x.toNat).flatten ++ leBytes 2 s.nhop.toNat
      | .timestamp => leBytes 8 s.slots[0].toNat
      | .compressedPower => leBytes (pwidthCode s.pwidth).toNat s.slots[0].toNat
      | .disabled => [] := by
  have hf : ∀ (l : List Word) (q : List Byte),
      l.foldl (fun q x => writeSlot x q) q = q ++ (l.map fun x => leBytes 8 x.toNat).flatten := by
    intro l
    induction l with
    | nil => simp
    | cons x l ih =>
      intro q
      rw [List.foldl_cons, ih, writeSlot_eq]
      simp
  unfold writeHeader
  cases s.mode with
  | compressedPower =>
    cases hp : s.pwidth <;>
      simp only [powerValue, powerBits, hp, outWrite, pwidthCode] <;> congr 1
    · rw [← leBytes_mod _ s.slots[0].toNat]
      congr 1
    · rw [← leBytes_mod _ s.slots[0].toNat]
      congr 1
  | _ => simp [writeRing, hf, outWrite, timestampValue]

/-! ### The power view -/

theorem powerBits_toNat (w : PowerWidth) (x : Word) :
    (powerBits w x).toNat = x.toNat % 2 ^ (8 * (pwidthCode w).toNat) := by
  cases w <;> simp [powerBits, pwidthCode, BitVec.extractLsb'_toNat] <;> omega

theorem withPowerBits_toNat (w : PowerWidth) (x v : Word) :
    (withPowerBits w x v).toNat =
      x.toNat / 2 ^ (8 * (pwidthCode w).toNat) * 2 ^ (8 * (pwidthCode w).toNat) +
        v.toNat % 2 ^ (8 * (pwidthCode w).toNat) := by
  have hx := x.isLt
  cases w <;> simp only [withPowerBits, pwidthCode, BitVec.toNat_append]
  · rw [← Nat.shiftLeft_add_eq_or_of_lt (BitVec.isLt _)]
    simp only [BitVec.extractLsb'_toNat, Nat.shiftRight_eq_div_pow, Nat.shiftLeft_eq]
    simp
    omega
  · rw [← Nat.shiftLeft_add_eq_or_of_lt (BitVec.isLt _)]
    simp only [BitVec.extractLsb'_toNat, Nat.shiftRight_eq_div_pow, Nat.shiftLeft_eq]
    simp
    omega

/-! ### Operands -/

theorem modeOfOperand?_eq_some {a : Word} {m : Mode} :
    modeOfOperand? a = some m ↔ a.toNat = (modeCode m).toNat := by
  unfold modeOfOperand?
  split <;> cases m <;> simp_all [modeCode]

theorem modeOfOperand?_eq_none {a : Word} : modeOfOperand? a = none ↔ 4 < a.toNat := by
  unfold modeOfOperand?
  split <;> simp_all
  omega

theorem pwidthOfOperand?_eq_some {a : Word} {w : PowerWidth} :
    pwidthOfOperand? a = some w ↔ a.toNat = (pwidthCode w).toNat := by
  unfold pwidthOfOperand?
  split <;> cases w <;> simp_all [pwidthCode]

theorem pwidthOfOperand?_eq_none {a : Word} : pwidthOfOperand? a = none ↔ a.toNat ≠ 1 ∧ a.toNat ≠ 2 := by
  unfold pwidthOfOperand?
  split <;> simp_all

theorem multiOfOperand?_eq_some {a : Word} {m : BitVec 32} :
    multiOfOperand? a = some m ↔ a.toNat ≠ 0 ∧ a.toNat = m.toNat := by
  have hm := m.isLt
  unfold multiOfOperand?
  split
  · simp
    omega
  · rw [Option.some.injEq, ← BitVec.toNat_inj, BitVec.extractLsb'_toNat]
    simp only [Nat.shiftRight_zero]
    omega

theorem multiOfOperand?_eq_none {a : Word} : multiOfOperand? a = none ↔ a.toNat = 0 ∨ 2 ^ 32 ≤ a.toNat := by
  unfold multiOfOperand?
  split <;> simp_all

/-! ### Rates and deltas -/

/-- R140: a rate has the code `c` exactly when `c` is one of the five known codes and the table maps it to the rate. -/
theorem codeOf_eq_some {r : Word} {c : BitVec 3} : codeOf r = some c ↔ c.toNat ≤ 4 ∧ rateOf c = r := by
  unfold codeOf
  constructor
  · intro h
    repeat' split at h
    all_goals cases h
    all_goals simp_all [rateOf]
  · rintro ⟨hc, rfl⟩
    revert c
    decide

theorem codeOf_eq_none {r : Word} : codeOf r = none ↔ ∀ c : BitVec 3, c.toNat ≤ 4 → rateOf c ≠ r := by
  constructor
  · intro h c hc hr
    rw [codeOf_eq_some.2 ⟨hc, hr⟩] at h
    cases h
  · intro h
    cases hc : codeOf r with
    | none => rfl
    | some c => exact absurd (codeOf_eq_some.1 hc).2 (h c (codeOf_eq_some.1 hc).1)

theorem wrapDelta_lt {width a b : Nat} (ha : a < 2 ^ width) (hb : b < 2 ^ width) : wrapDelta width a b < 2 ^ width := by
  unfold wrapDelta
  split <;> omega

theorem scaleBytes_toNat (m : BitVec 32) (units : Nat) (h : units < 2 ^ 20) :
    (scaleBytes m units).toNat = units * 128 * m.toNat := by
  have hm := m.isLt
  have : units * 128 * m.toNat < 2 ^ 64 := by
    calc units * 128 * m.toNat ≤ 2 ^ 20 * 128 * 2 ^ 32 := by gcongr
      _ < 2 ^ 64 := by norm_num
  rw [scaleBytes, BitVec.toNat_ofNat]
  exact Nat.mod_eq_of_lt this

theorem scaleQlen_toNat (m : BitVec 32) (units : Nat) (h : units < 2 ^ 17) :
    (scaleQlen m units).toNat = units * 80 * m.toNat := by
  have hm := m.isLt
  have : units * 80 * m.toNat < 2 ^ 64 := by
    calc units * 80 * m.toNat ≤ 2 ^ 17 * 80 * 2 ^ 32 := by gcongr
      _ < 2 ^ 64 := by norm_num
  rw [scaleQlen, BitVec.toNat_ofNat]
  exact Nat.mod_eq_of_lt this

end Sys2Proof.Machine
end

