-- ==== Sys2Proof/Laws/Exec.lean ====
section
/-! SUPPORT. Said once for all 27 commands: each is a command taken or not by `takeCommand`, what it can do when it answers a
next state, and what a step can do. -/

namespace Sys2Proof.Machine

/-- R205: DESERIALIZE's loading of the storage writes the slots, `NHOP` and `INQ` alone. -/
theorem readHeader_frame (s : State) :
    readHeader s = { s with
      slots := (readHeader s).slots, nhop := (readHeader s).nhop, inq := (readHeader s).inq } := by
  obtain ⟨_, mode, _⟩ := s
  cases mode <;> rfl

/-- R59: every command takes effect at once or not at all. -/
theorem exec_eq_takeCommand (i : Instr) : ∃ effect : State → State, ∀ s, exec i s = takeCommand s effect := by
  cases i <;> exact ⟨_, fun _ => rfl⟩

/-- A command answers a next state only while `FAULT` is none. -/
theorem fault_eq_none_of_exec {i : Instr} {s t : State} (h : exec i s = .next t) : s.fault = none := by
  obtain ⟨effect, he⟩ := exec_eq_takeCommand i
  rw [he] at h
  exact (takeCommand_eq_next.1 h).1

/-- What a command leaves of the command port, the parameters and the fault when it answers a next state: it completes with
one response of the right shape, or it is a DESERIALIZE that underruns. -/
theorem exec_next_cases {i : Instr} {s t : State} (h : exec i s = .next t) :
    t.host = s.host ∧ t.params = s.params ∧
      ((∃ st rs, t.fault = none ∧ t.ci = s.ci + 1 ∧ t.responses = s.responses ++ [{ status := st, results := rs }] ∧
          Response.wellFormed { status := st, results := rs } = true ∧ rs.length = resultCount i ∧
          (st ≠ .ok → ∀ w ∈ rs, w = 0)) ∨
        (i = .deserialize ∧ s.inq.length < wireSize s ∧ t = { s with fault := some .cursorUnderrun })) := by
  have hf := fault_eq_none_of_exec h
  cases i <;> simp only [exec] at h
  all_goals
    simp only [execGetMode, execSetMode, execGetPwidth, execSetPwidth, execGetMulti, execSetMulti, execRateOf,
      execEncNormal, execEncPort, execDecTime, execDecBytes, execDecQlen, execDecRate, execDecPort, execBytesDelta,
      execTimeDelta, execHdrClear, execStaticSize, execPushHop, execGetNhop, execReadSlot, execGetTs, execSetTs,
      execGetPower, execSetPower, execSerialize, execDeserialize, takeCommand_eq_next] at h
    obtain ⟨-, h⟩ := h
    repeat' split at h
  case deserialize.isTrue =>
    subst h
    exact ⟨rfl, rfl, .inr ⟨rfl, ‹_›, rfl⟩⟩
  case deserialize.isFalse =>
    rw [readHeader_frame] at h
    subst h
    exact ⟨rfl, rfl, .inl ⟨_, _, hf, rfl, rfl, by simp [Response.wellFormed, resultCount]⟩⟩
  all_goals
    subst h
    exact ⟨rfl, rfl, .inl ⟨_, _, hf, rfl, rfl, by simp [Response.wellFormed, resultCount]⟩⟩

/-- Everything a step can do when it answers a next state. -/
theorem step_next_cases {s t : State} (h : step s = .next t) :
    (s.host = [] ∧ t = s) ∨
      (∃ bytes rest, s.host = .fill bytes :: rest ∧ t = { s with host := rest, inq := s.inq ++ bytes }) ∨
      (∃ n rest, s.host = .drain n :: rest ∧ t = { s with host := rest, outq := s.outq.drop n }) ∨
      (∃ rest, s.host = .reset :: rest ∧ t = resetBy { s with host := rest }) ∨
      (∃ c rest i, s.host = .issue c :: rest ∧ decode c = .ok i ∧ exec i { s with host := rest } = .next t) ∨
      ∃ c rest cause, s.host = .issue c :: rest ∧ decode c = .error cause ∧ s.fault = none ∧
        t = answered { s with host := rest } .errIllegal [] := by
  unfold step at h
  rcases hh : s.host with _ | ⟨a, rest⟩
  · rw [nextAction?_nil hh] at h
    simp only [waitForHost, Host.Outcome.next.injEq] at h
    exact .inl ⟨rfl, h.symm⟩
  · rw [nextAction?_cons hh] at h
    cases a with
    | issue c =>
      simp only at h
      cases hd : decode c with
      | ok i =>
        rw [hd] at h
        exact .inr (.inr (.inr (.inr (.inl ⟨c, rest, i, rfl, hd, h⟩))))
      | error cause =>
        rw [hd] at h
        obtain ⟨hf, rfl⟩ := takeCommand_eq_next.1 h
        exact .inr (.inr (.inr (.inr (.inr ⟨c, rest, cause, rfl, hd, hf, rfl⟩))))
    | fill bytes =>
      simp only [fillInput, Host.Outcome.next.injEq] at h
      exact .inr (.inl ⟨bytes, rest, rfl, h.symm⟩)
    | drain n =>
      simp only [drainOutput, Host.Outcome.next.injEq] at h
      exact .inr (.inr (.inl ⟨n, rest, rfl, h.symm⟩))
    | reset =>
      simp only [assertReset, Host.Outcome.next.injEq] at h
      exact .inr (.inr (.inr (.inl ⟨rest, rfl, h.symm⟩)))

/-! ### What each command answers while `FAULT` is none -/

section
variable {s : State} (hf : s.fault = none)
include hf

theorem exec_getMode : exec .getMode s = .next (answered s .ok [modeWord s.mode]) := by
  simp [exec, execGetMode, takeCommand_of_none _ hf]

theorem exec_setMode_some {a : Word} {m : Mode} (h : modeOfOperand? a = some m) :
    exec (.setMode a) s = .next (answered { s with mode := m } .ok []) := by
  simp [exec, execSetMode, takeCommand_of_none _ hf, h]

theorem exec_setMode_none {a : Word} (h : modeOfOperand? a = none) :
    exec (.setMode a) s = .next (answered s .errCfg []) := by
  simp [exec, execSetMode, takeCommand_of_none _ hf, h]

theorem exec_getPwidth : exec .getPwidth s = .next (answered s .ok [pwidthWord s.pwidth]) := by
  simp [exec, execGetPwidth, takeCommand_of_none _ hf]

theorem exec_setPwidth_some {a : Word} {w : PowerWidth} (h : pwidthOfOperand? a = some w) :
    exec (.setPwidth a) s = .next (answered { s with pwidth := w } .ok []) := by
  simp [exec, execSetPwidth, takeCommand_of_none _ hf, h]

theorem exec_setPwidth_none {a : Word} (h : pwidthOfOperand? a = none) :
    exec (.setPwidth a) s = .next (answered s .errCfg []) := by
  simp [exec, execSetPwidth, takeCommand_of_none _ hf, h]

theorem exec_getMulti : exec .getMulti s = .next (answered s .ok [multiWord s.multi]) := by
  simp [exec, execGetMulti, takeCommand_of_none _ hf]

theorem exec_setMulti_some {a : Word} {m : BitVec 32} (h : multiOfOperand? a = some m) :
    exec (.setMulti a) s = .next (answered { s with multi := m } .ok []) := by
  simp [exec, execSetMulti, takeCommand_of_none _ hf, h]

theorem exec_setMulti_none {a : Word} (h : multiOfOperand? a = none) :
    exec (.setMulti a) s = .next (answered s .errCfg []) := by
  simp [exec, execSetMulti, takeCommand_of_none _ hf, h]

theorem exec_rateOf (a : Word) :
    exec (.rateOf a) s = .next (answered s .ok [if a.toNat < 8 then rateOf (a.extractLsb' 0 3) else 0]) := by
  simp [exec, execRateOf, takeCommand_of_none _ hf]

theorem exec_encNormal_some {a b c d x : Word} (h : encodeNormal? s a b c d = some x) :
    exec (.encNormal a b c d) s = .next (answered s .ok [x]) := by
  simp [exec, execEncNormal, takeCommand_of_none _ hf, h]

theorem exec_encNormal_none {a b c d : Word} (h : encodeNormal? s a b c d = none) :
    exec (.encNormal a b c d) s = .next (answered s .errRate [0]) := by
  simp [exec, execEncNormal, takeCommand_of_none _ hf, h]

theorem exec_encPort (a : Word) : exec (.encPort a) s = .next (answered s .ok [a]) := by
  simp [exec, execEncPort, takeCommand_of_none _ hf]

theorem exec_decTime (a : Word) :
    exec (.decTime a) s = .next (answered s .ok [(fTime s.params.hopLayout a).setWidth 64]) := by
  simp [exec, execDecTime, takeCommand_of_none _ hf]

theorem exec_decBytes (a : Word) :
    exec (.decBytes a) s = .next (answered s .ok [scaleBytes s.multi (fBytes s.params.hopLayout a).toNat]) := by
  simp [exec, execDecBytes, takeCommand_of_none _ hf]

theorem exec_decQlen (a : Word) :
    exec (.decQlen a) s = .next (answered s .ok [scaleQlen s.multi (fQlen s.params.hopLayout a).toNat]) := by
  simp [exec, execDecQlen, takeCommand_of_none _ hf]

theorem exec_decRate (a : Word) :
    exec (.decRate a) s = .next (answered s .ok [rateOf (fRate s.params.hopLayout a)]) := by
  simp [exec, execDecRate, takeCommand_of_none _ hf]

theorem exec_decPort (a : Word) : exec (.decPort a) s = .next (answered s .ok [a]) := by
  simp [exec, execDecPort, takeCommand_of_none _ hf]

theorem exec_bytesDelta (a b : Word) :
    exec (.bytesDelta a b) s = .next (answered s .ok [scaleBytes s.multi
      (wrapDelta 20 (fBytes s.params.hopLayout a).toNat (fBytes s.params.hopLayout b).toNat)]) := by
  simp [exec, execBytesDelta, takeCommand_of_none _ hf]

theorem exec_timeDelta (a b : Word) :
    exec (.timeDelta a b) s = .next (answered s .ok [BitVec.ofNat 64
      (wrapDelta 24 (fTime s.params.hopLayout a).toNat (fTime s.params.hopLayout b).toNat)]) := by
  simp [exec, execTimeDelta, takeCommand_of_none _ hf]

theorem exec_hdrClear : exec .hdrClear s = .next (answered (clearHeader s) .ok []) := by
  simp [exec, execHdrClear, takeCommand_of_none _ hf]

theorem exec_staticSize : exec .staticSize s = .next (answered s .ok [BitVec.ofNat 64 (wireSize s)]) := by
  simp [exec, execStaticSize, takeCommand_of_none _ hf]

theorem exec_pushHop_normal_some {a b c d e x : Word} (hm : s.mode = .normal) (h : encodeNormal? s a b c d = some x) :
    exec (.pushHop a b c d e) s = .next (answered (pushSlot s x) .ok []) := by
  simp [exec, execPushHop, takeCommand_of_none _ hf, hm, h]

theorem exec_pushHop_normal_none {a b c d e : Word} (hm : s.mode = .normal) (h : encodeNormal? s a b c d = none) :
    exec (.pushHop a b c d e) s = .next (answered s .errRate []) := by
  simp [exec, execPushHop, takeCommand_of_none _ hf, hm, h]

theorem exec_pushHop_portTrace {a b c d e : Word} (hm : s.mode = .portTrace) :
    exec (.pushHop a b c d e) s = .next (answered (pushSlot s e) .ok []) := by
  simp [exec, execPushHop, takeCommand_of_none _ hf, hm]

theorem exec_pushHop_other {a b c d e : Word} (h1 : s.mode ≠ .normal) (h2 : s.mode ≠ .portTrace) :
    exec (.pushHop a b c d e) s = .next (answered s .ok []) := by
  simp only [exec, execPushHop, takeCommand_of_none _ hf]
  split <;> simp_all

theorem exec_getNhop : exec .getNhop s = .next (answered s .ok [nhopWord s.nhop]) := by
  simp [exec, execGetNhop, takeCommand_of_none _ hf]

theorem exec_readSlot_lt {i : BitVec 3} (h : slotIndex i < maxHop) :
    exec (.readSlot i) s = .next (answered s .ok [s.slots[slotIndex i]]) := by
  simp [exec, execReadSlot, takeCommand_of_none _ hf, h]

theorem exec_readSlot_ge {i : BitVec 3} (h : maxHop ≤ slotIndex i) :
    exec (.readSlot i) s = .next (answered s .errSlot [0]) := by
  simp [exec, execReadSlot, takeCommand_of_none _ hf, Nat.not_lt.2 h]

theorem exec_getTs :
    exec .getTs s = .next (answered s .ok [if s.mode = .timestamp then timestampValue s else 0]) := by
  simp [exec, execGetTs, takeCommand_of_none _ hf]

theorem exec_setTs (a : Word) :
    exec (.setTs a) s = .next (answered (if s.mode = .timestamp then setTimestamp s a else s) .ok []) := by
  simp [exec, execSetTs, takeCommand_of_none _ hf]

theorem exec_getPower :
    exec .getPower s = .next (answered s .ok [if s.mode = .compressedPower then powerValue s else 0]) := by
  simp [exec, execGetPower, takeCommand_of_none _ hf]

theorem exec_setPower (a : Word) :
    exec (.setPower a) s = .next (answered (if s.mode = .compressedPower then setPowerValue s a else s) .ok []) := by
  simp [exec, execSetPower, takeCommand_of_none _ hf]

theorem exec_serialize :
    exec .serialize s =
      .next (answered { s with outq := writeHeader s s.outq } .ok [BitVec.ofNat 64 (wireSize s)]) := by
  simp [exec, execSerialize, takeCommand_of_none _ hf]

theorem exec_deserialize_lt (h : s.inq.length < wireSize s) :
    exec .deserialize s = .next (raiseFault s .cursorUnderrun) := by
  simp [exec, execDeserialize, takeCommand_of_none _ hf, h]

theorem exec_deserialize_ge (h : wireSize s ≤ s.inq.length) :
    exec .deserialize s = .next (answered (readHeader s) .ok [BitVec.ofNat 64 (wireSize s)]) := by
  simp [exec, execDeserialize, takeCommand_of_none _ hf, Nat.not_lt.2 h]

end

end Sys2Proof.Machine
end

