-- ==== Sys2Proof/Laws/Wire.lean ====
section
/-! SUPPORT. The wire image of the header storage: where each byte stands, how long it is, and what reading it back gives. -/

namespace Sys2Proof.Machine

/-- The bytes of a list of slots, eight to a slot. -/
abbrev slotBytes (l : List Word) : List Byte := (l.map fun x => leBytes 8 x.toNat).flatten

theorem slotBytes_length (l : List Word) : (slotBytes l).length = 8 * l.length := by
  induction l with
  | nil => rfl
  | cons x l ih =>
    rw [slotBytes, List.map_cons, List.flatten_cons, List.length_append, ih, leBytes_length, List.length_cons]
    omega

/-- R51: byte `k` of slot `j` stands at offset `8 j + k`. -/
theorem slotBytes_getElem? (l : List Word) (j k : Nat) (hj : j < l.length) (hk : k < 8) (rest : List Byte) :
    (slotBytes l ++ rest)[8 * j + k]? = some (BitVec.ofNat 8 (l[j].toNat / 256 ^ k)) := by
  induction l generalizing j with
  | nil => simp at hj
  | cons x l ih =>
    rw [slotBytes, List.map_cons, List.flatten_cons, List.append_assoc]
    cases j with
    | zero =>
      rw [List.getElem?_append_left (by simp; omega), leBytes_getElem?]
      simp [hk]
    | succ j =>
      rw [List.getElem?_append_right (by simp; omega), leBytes_length,
        show 8 * (j + 1) + k - 8 = 8 * j + k by omega, ih _ (by simpa using hj)]
      rfl

theorem wireSize_toNat (s : State) : (BitVec.ofNat 64 (wireSize s)).toNat = wireSize s := by
  unfold wireSize
  cases s.mode <;> cases s.pwidth <;> rfl

theorem ofNat_leValue_toNat (w : List Byte) (h : w.length = 8) :
    (BitVec.ofNat 64 (leValue w)).toNat = leValue w := by
  have hw := leValue_lt w
  rw [h] at hw
  rw [BitVec.toNat_ofNat]
  omega

/-- Two values with the same low `n` bytes in a byte sequence agree modulo `256 ^ n`. -/
theorem mod_eq_of_hasByte {w : List Byte} {offset n x y : Nat} (hx : ∀ k < n, HasByte w offset x k)
    (hy : ∀ k < n, HasByte w offset y k) : x % 256 ^ n = y % 256 ^ n := by
  rw [← leValue_leBytes, ← leValue_leBytes]
  congr 1
  apply List.ext_getElem?
  intro k
  rw [leBytes_getElem?, leBytes_getElem?]
  split
  · rw [← hx k ‹_›, ← hy k ‹_›]
  · rfl

/-! ### Reading the header, mode by mode -/

/-- R205, Normal and PortTrace: five slots and then `NHOP`, each read from what the one before it left. -/
theorem readRing_of {s : State} {x0 x1 x2 x3 x4 : Word} {q1 q2 q3 q4 q5 rest : List Byte} {n : Nat}
    (h0 : readSlotFrom s.inq = (x0, q1)) (h1 : readSlotFrom q1 = (x1, q2)) (h2 : readSlotFrom q2 = (x2, q3))
    (h3 : readSlotFrom q3 = (x3, q4)) (h4 : readSlotFrom q4 = (x4, q5)) (hn : inRead 2 q5 = (n, rest)) :
    readRing s = { s with slots := #v[x0, x1, x2, x3, x4], nhop := BitVec.ofNat 16 n, inq := rest } := by
  have e : readRing s = { s with
      slots := #v[(readSlotFrom s.inq).1, (readSlotFrom (readSlotFrom s.inq).2).1,
        (readSlotFrom (readSlotFrom (readSlotFrom s.inq).2).2).1,
        (readSlotFrom (readSlotFrom (readSlotFrom (readSlotFrom s.inq).2).2).2).1,
        (readSlotFrom (readSlotFrom (readSlotFrom (readSlotFrom (readSlotFrom s.inq).2).2).2).2).1]
      nhop := BitVec.ofNat 16
        (inRead 2 (readSlotFrom (readSlotFrom (readSlotFrom (readSlotFrom (readSlotFrom s.inq).2).2).2).2).2).1
      inq :=
        (inRead 2 (readSlotFrom (readSlotFrom (readSlotFrom (readSlotFrom (readSlotFrom s.inq).2).2).2).2).2).2 } := rfl
  rw [e, h0, h1, h2, h3, h4, hn]

/-- R205, Normal and PortTrace: the ring from 42 bytes at the front of `INQ`. -/
theorem readRing_append {s : State} {a b c d e n rest : List Byte}
    (h : s.inq = a ++ (b ++ (c ++ (d ++ (e ++ (n ++ rest)))))) (ha : a.length = 8) (hb : b.length = 8)
    (hc : c.length = 8) (hd : d.length = 8) (he : e.length = 8) (hn : n.length = 2) :
    readRing s = { s with
      slots := #v[BitVec.ofNat 64 (leValue a), BitVec.ofNat 64 (leValue b), BitVec.ofNat 64 (leValue c),
        BitVec.ofNat 64 (leValue d), BitVec.ofNat 64 (leValue e)]
      nhop := BitVec.ofNat 16 (leValue n)
      inq := rest } :=
  readRing_of (by rw [h, readSlotFrom_append a _ ha]) (readSlotFrom_append b _ hb) (readSlotFrom_append c _ hc)
    (readSlotFrom_append d _ hd) (readSlotFrom_append e _ he) (hn ▸ inRead_append n rest)

theorem readHeader_ring {s : State} (h : s.mode = .normal ∨ s.mode = .portTrace) : readHeader s = readRing s := by
  unfold readHeader
  rcases h with h | h <;> rw [h]

theorem readHeader_timestamp {s : State} (h : s.mode = .timestamp) :
    readHeader s =
      setTimestamp { s with inq := (inRead 8 s.inq).2 } (BitVec.ofNat 64 (inRead 8 s.inq).1) := by
  unfold readHeader
  rw [h]

theorem readHeader_compressedPower {s : State} (h : s.mode = .compressedPower) :
    readHeader s =
      setPowerValue { s with inq := (inRead (pwidthCode s.pwidth).toNat s.inq).2 }
        (BitVec.ofNat 64 (inRead (pwidthCode s.pwidth).toNat s.inq).1) := by
  unfold readHeader
  rw [h]

theorem readHeader_disabled {s : State} (h : s.mode = .disabled) : readHeader s = s := by
  unfold readHeader
  rw [h]

end Sys2Proof.Machine
end

