-- ==== Sys2Proof/Laws/Effects.lean ====
section
/-! SUPPORT. Everything a command can do to the state when it answers a next state, said once over all 27 commands. -/

namespace Sys2Proof.Machine

/-- What a slot holds after one slot is written. -/
theorem slots_set_getElem (v : Vector Word 5) (i : Nat) (h : i < 5) (x : Word) (j : Fin 5) :
    (v.set i x h)[j] = if j.val = i then x else v[j] := by
  simp [Vector.getElem_set, eq_comm]

theorem pushSlot_getElem (s : State) (x : Word) (j : Fin 5) :
    (pushSlot s x).slots[j] = if j.val = s.nhop.toNat % 5 then x else s.slots[j] :=
  slots_set_getElem s.slots (pushIndex s) (pushIndex_lt s) x j

/-- What DESERIALIZE writes of the storage: all of it in a mode with a ring, slot 0 at most in every other mode. -/
theorem readHeader_storage (s : State) : (s.mode = .normal ∨ s.mode = .portTrace) ∨
    ((readHeader s).nhop = s.nhop ∧ ∀ j : Fin 5, (readHeader s).slots[j] ≠ s.slots[j] →
      j = 0 ∧ (s.mode = .timestamp ∨ s.mode = .compressedPower)) := by
  have one : ∀ (x : Word) (j : Fin 5), (s.slots.set 0 x)[j] ≠ s.slots[j] → j = 0 := by
    intro x j hne
    rw [slots_set_getElem] at hne
    by_contra hj
    exact hne (if_neg fun h => hj (Fin.ext h))
  have h : s.mode = .normal ∨ s.mode = .portTrace ∨ s.mode = .timestamp ∨ s.mode = .compressedPower ∨
      s.mode = .disabled := by
    cases s.mode <;> simp
  rcases h with h | h | h | h | h
  · exact .inl (.inl h)
  · exact .inl (.inr h)
  · rw [readHeader_timestamp h]
    exact .inr ⟨rfl, fun j hj => ⟨one _ j hj, .inl h⟩⟩
  · rw [readHeader_compressedPower h]
    exact .inr ⟨rfl, fun j hj => ⟨one _ j hj, .inr h⟩⟩
  · rw [readHeader_disabled h]
    exact .inr ⟨rfl, fun j hj => absurd rfl hj⟩

/-- Which command raises which error status (R220). -/
def RaisedBy (st : Status) (i : Instr) (s : State) : Prop :=
  (st = .errSlot ∧ ∃ k : BitVec 3, i = .readSlot k ∧ 5 ≤ k.toNat) ∨
    (st = .errCfg ∧ ∃ a, i = .setMode a ∨ i = .setPwidth a ∨ i = .setMulti a) ∨
    (st = .errRate ∧ ∃ a b c d, i = .encNormal a b c d ∨ (s.mode = .normal ∧ ∃ e, i = .pushHop a b c d e))

/-- Everything a command can do when it answers a next state: it only answers, or it is one of the nine commands that write
the state, and then this is what it writes. -/
theorem exec_effects {i : Instr} {s t : State} (h : exec i s = .next t) :
    (∃ st rs, t = answered s st rs ∧ (st ≠ .ok → RaisedBy st i s)) ∨
      (∃ a m, i = .setMode a ∧ t = answered { s with mode := m } .ok []) ∨
      (∃ a w, i = .setPwidth a ∧ t = answered { s with pwidth := w } .ok []) ∨
      (∃ a m, i = .setMulti a ∧ t = answered { s with multi := m } .ok []) ∨
      (i = .hdrClear ∧ t = answered (clearHeader s) .ok []) ∨
      (∃ a b c d e x, i = .pushHop a b c d e ∧ (s.mode = .normal ∨ s.mode = .portTrace) ∧
        t = answered (pushSlot s x) .ok []) ∨
      (∃ a, i = .setTs a ∧ s.mode = .timestamp ∧ t = answered (setTimestamp s a) .ok []) ∨
      (∃ a, i = .setPower a ∧ s.mode = .compressedPower ∧ t = answered (setPowerValue s a) .ok []) ∨
      (i = .serialize ∧ ∃ q n, t = answered { s with outq := q } .ok [n]) ∨
      (i = .deserialize ∧ (t = raiseFault s .cursorUnderrun ∨
        ∃ v k q n, t = answered { s with slots := v, nhop := k, inq := q } .ok [n] ∧
          ((s.mode = .normal ∨ s.mode = .portTrace) ∨ (k = s.nhop ∧ ∀ j : Fin 5, v[j] ≠ s.slots[j] →
            j = 0 ∧ (s.mode = .timestamp ∨ s.mode = .compressedPower))))) := by
  have ok : ∀ rs, ∃ st rs', answered s .ok rs = answered s st rs' ∧ (st ≠ .ok → RaisedBy st i s) :=
    fun rs => ⟨.ok, rs, rfl, fun h => absurd rfl h⟩
  cases i <;> simp only [exec] at h
  all_goals
    simp only [execGetMode, execSetMode, execGetPwidth, execSetPwidth, execGetMulti, execSetMulti, execRateOf,
      execEncNormal, execEncPort, execDecTime, execDecBytes, execDecQlen, execDecRate, execDecPort, execBytesDelta,
      execTimeDelta, execHdrClear, execStaticSize, execPushHop, execGetNhop, execReadSlot, execGetTs, execSetTs,
      execGetPower, execSetPower, execSerialize, execDeserialize, takeCommand_eq_next] at h
    obtain ⟨-, rfl⟩ := h
  case setMode a =>
    split
    · exact .inr (.inl ⟨_, _, rfl, rfl⟩)
    · exact .inl ⟨_, _, rfl, fun _ => .inr (.inl ⟨rfl, _, .inl rfl⟩)⟩
  case setPwidth a =>
    split
    · exact .inr (.inr (.inl ⟨_, _, rfl, rfl⟩))
    · exact .inl ⟨_, _, rfl, fun _ => .inr (.inl ⟨rfl, _, .inr (.inl rfl)⟩)⟩
  case setMulti a =>
    split
    · exact .inr (.inr (.inr (.inl ⟨_, _, rfl, rfl⟩)))
    · exact .inl ⟨_, _, rfl, fun _ => .inr (.inl ⟨rfl, _, .inr (.inr rfl)⟩)⟩
  case encNormal a b c d =>
    split
    · exact .inl (ok _)
    · exact .inl ⟨_, _, rfl, fun _ => .inr (.inr ⟨rfl, _, _, _, _, .inl rfl⟩)⟩
  case hdrClear => exact .inr (.inr (.inr (.inr (.inl ⟨rfl, rfl⟩))))
  case pushHop a b c d e =>
    split
    · split
      · exact .inr (.inr (.inr (.inr (.inr (.inl ⟨_, _, _, _, _, _, rfl, .inl ‹_›, rfl⟩)))))
      · exact .inl ⟨_, _, rfl, fun _ => .inr (.inr ⟨rfl, _, _, _, _, .inr ⟨‹_›, _, rfl⟩⟩)⟩
    · exact .inr (.inr (.inr (.inr (.inr (.inl ⟨_, _, _, _, _, _, rfl, .inr ‹_›, rfl⟩)))))
    all_goals exact .inl (ok _)
  case readSlot k =>
    split
    · exact .inl (ok _)
    · exact .inl ⟨_, _, rfl, fun _ => .inl ⟨rfl, _, rfl, Nat.not_lt.1 ‹_›⟩⟩
  case setTs a =>
    split
    · exact .inr (.inr (.inr (.inr (.inr (.inr (.inl ⟨_, rfl, ‹_›, rfl⟩))))))
    · exact .inl (ok _)
  case setPower a =>
    split
    · exact .inr (.inr (.inr (.inr (.inr (.inr (.inr (.inl ⟨_, rfl, ‹_›, rfl⟩)))))))
    · exact .inl (ok _)
  case serialize => exact .inr (.inr (.inr (.inr (.inr (.inr (.inr (.inr (.inl ⟨rfl, _, _, rfl⟩))))))))
  case deserialize =>
    refine .inr (.inr (.inr (.inr (.inr (.inr (.inr (.inr (.inr ⟨rfl, ?_⟩))))))))
    split
    · exact .inl rfl
    · exact .inr ⟨_, _, _, BitVec.ofNat 64 (wireSize s), congrArg (answerOk · _) (readHeader_frame s), readHeader_storage s⟩
  all_goals exact .inl (ok _)

end Sys2Proof.Machine
end

