-- ==== Sys2Proof/Laws/PerInstr.lean ====
section
/-! SUPPORT. The family `EncodesLegally`: the encoder's transaction of every command passes the legality check of R85, as
WellFormed.lean states it. -/

namespace Sys2Proof.Laws.EncodesLegally

/-- R85: the transaction that spells `i` is legal. -/
def Statement (i : Instr) : Prop := (encode i).legal = true

/-- A transaction with the given opcode, `SLOT` and `RSVD` 0, and the opcode's operand count is legal. -/
theorem legal_of_count (o : BitVec 8) (n : Nat) (ops : List Word) (hw : operandCount? o.toNat = some n)
    (hn : ops.length = n) : Command.legal { word := commandWord 0 o, operands := ops } = true := by
  have ho := o.isLt
  have hz : (0 : BitVec 3).toNat = 0 := rfl
  have h1 : (0 * 2 ^ 8 + o.toNat) % 2 ^ 8 = o.toNat := by omega
  have h2 : (0 * 2 ^ 8 + o.toNat) / 2 ^ 11 = 0 := by omega
  have h3 : (0 * 2 ^ 8 + o.toNat) / 2 ^ 8 % 2 ^ 3 = 0 := by omega
  simp only [Command.legal, Command.opcodeListed, Command.reservedZero, Command.slotAllowed, Command.countMatches,
    Command.opcodeNumber, commandWord_toNat, hz, h1, h2, h3, hw, hn]
  simp

theorem getMode : Statement .getMode :=
  legal_of_count 0x01 0 [] (by decide) rfl

theorem setMode (a : Word) : Statement (.setMode a) :=
  legal_of_count 0x02 1 [a] (by decide) rfl

theorem getPwidth : Statement .getPwidth :=
  legal_of_count 0x03 0 [] (by decide) rfl

theorem setPwidth (a : Word) : Statement (.setPwidth a) :=
  legal_of_count 0x04 1 [a] (by decide) rfl

theorem getMulti : Statement .getMulti :=
  legal_of_count 0x05 0 [] (by decide) rfl

theorem setMulti (a : Word) : Statement (.setMulti a) :=
  legal_of_count 0x06 1 [a] (by decide) rfl

theorem rateOf (a : Word) : Statement (.rateOf a) :=
  legal_of_count 0x07 1 [a] (by decide) rfl

theorem encNormal (a b c d : Word) : Statement (.encNormal a b c d) :=
  legal_of_count 0x10 4 [a, b, c, d] (by decide) rfl

theorem encPort (a : Word) : Statement (.encPort a) :=
  legal_of_count 0x11 1 [a] (by decide) rfl

theorem decTime (a : Word) : Statement (.decTime a) :=
  legal_of_count 0x12 1 [a] (by decide) rfl

theorem decBytes (a : Word) : Statement (.decBytes a) :=
  legal_of_count 0x13 1 [a] (by decide) rfl

theorem decQlen (a : Word) : Statement (.decQlen a) :=
  legal_of_count 0x14 1 [a] (by decide) rfl

theorem decRate (a : Word) : Statement (.decRate a) :=
  legal_of_count 0x15 1 [a] (by decide) rfl

theorem decPort (a : Word) : Statement (.decPort a) :=
  legal_of_count 0x16 1 [a] (by decide) rfl

theorem bytesDelta (a b : Word) : Statement (.bytesDelta a b) :=
  legal_of_count 0x17 2 [a, b] (by decide) rfl

theorem timeDelta (a b : Word) : Statement (.timeDelta a b) :=
  legal_of_count 0x18 2 [a, b] (by decide) rfl

theorem hdrClear : Statement .hdrClear :=
  legal_of_count 0x20 0 [] (by decide) rfl

theorem staticSize : Statement .staticSize :=
  legal_of_count 0x21 0 [] (by decide) rfl

theorem pushHop (a b c d e : Word) : Statement (.pushHop a b c d e) :=
  legal_of_count 0x22 5 [a, b, c, d, e] (by decide) rfl

theorem getNhop : Statement .getNhop :=
  legal_of_count 0x23 0 [] (by decide) rfl

theorem readSlot (i : BitVec 3) : Statement (.readSlot i) := by
  revert i
  unfold Statement
  decide

theorem getTs : Statement .getTs :=
  legal_of_count 0x25 0 [] (by decide) rfl

theorem setTs (a : Word) : Statement (.setTs a) :=
  legal_of_count 0x26 1 [a] (by decide) rfl

theorem getPower : Statement .getPower :=
  legal_of_count 0x27 0 [] (by decide) rfl

theorem setPower (a : Word) : Statement (.setPower a) :=
  legal_of_count 0x28 1 [a] (by decide) rfl

theorem serialize : Statement .serialize :=
  legal_of_count 0x30 0 [] (by decide) rfl

theorem deserialize : Statement .deserialize :=
  legal_of_count 0x31 0 [] (by decide) rfl

end Sys2Proof.Laws.EncodesLegally
end

