-- ==== Sys2Proof/Tests/Slice0.lean ====
section
/-! SUPPORT. The model's own tests. The expected results are the vectors of spec/95_test_vectors.md, cited by their names there
(C, E, D, T, H, S, X and the programs P1 to P5), and words written out from the encoding rules R81 and R87. A `witness_` theorem
shows concrete operands that meet the hypotheses of the statement it names, clause by clause. -/

namespace Sys2Proof.Tests

open Sys2Proof.Machine

/-- The machine after reset, put into a mode. -/
def inMode (m : Mode) : State := { State.reset with mode := m }

/-- The 100 Gbps rate, `G` in spec/95_test_vectors.md. -/
def rateG : Word := 100000000000

/-- The next state, if the step answers one. -/
def next? : Host.Outcome State Fault Refusal → Option State
  | .next t => some t
  | .fault _ => none
  | .refused _ => none

/-- What a step makes of one part of the state, if it answers a next state. -/
def after? {α : Type} (o : Host.Outcome State Fault Refusal) (part : State → α) : Option α := (next? o).map part

/-- The response to the last completed command. -/
def lastResponse (t : State) : Option Response := t.responses.getLast?

/-- The response of one command. -/
def answer? (i : Instr) (s : State) : Option (Option Response) := after? (exec i s) lastResponse

/-- A response. -/
def resp (st : Status) (rs : List Word) : Option (Option Response) := some (some { status := st, results := rs })

/-- A command word with no operand words. -/
def bare (w : BitVec 32) : Command := { word := w, operands := [] }

/-- A command word with operand words. -/
def cmd (w : BitVec 32) (ops : List Word) : Command := { word := w, operands := ops }

/-- The state in which the host issues one command next. -/
def issuing (c : Command) (s : State) : State := { s with host := [.issue c] }

/-! ### Well-formedness: one ill-formed transaction for each check of R85 -/

/-- X1: the command word of all zeros. -/
theorem test_wf_opcode_zero_refused : (bare 0x00000000).opcodeListed = false ∧ (bare 0).legal = false := by decide

/-- X3: GET_MODE with bit 11 set. -/
theorem test_wf_reserved_refused : (bare 0x00000801).reservedZero = false ∧ (bare 0x801).legal = false := by decide

/-- X4: GET_MODE with `SLOT` = 1. -/
theorem test_wf_slot_refused : (bare 0x00000101).slotAllowed = false ∧ (bare 0x101).legal = false := by decide

/-- X5, X6: SET_MODE with no operand word and with two. -/
theorem test_wf_count_refused :
    (bare 0x00000002).countMatches = false ∧ (cmd 0x00000002 [1, 1]).countMatches = false ∧
      (bare 2).legal = false ∧ (cmd 2 [1, 1]).legal = false := by decide

/-- R89: the largest `SLOT` value is a legal spelling of READ_SLOT. -/
theorem test_wf_read_slot_seven_legal : (bare 0x00000724).legal = true := by decide

/-! ### Decoding: a word of every constructor, its bits written out as `RSVD`, `SLOT`, `OPC` (R81, R87) -/

theorem test_decode_configuration :
    decode (bare 0b000000000000000000000_000_00000001) = .ok .getMode ∧
      decode (cmd 0b000000000000000000000_000_00000010 [4]) = .ok (.setMode 4) ∧
      decode (bare 0b000000000000000000000_000_00000011) = .ok .getPwidth ∧
      decode (cmd 0b000000000000000000000_000_00000100 [1]) = .ok (.setPwidth 1) ∧
      decode (bare 0b000000000000000000000_000_00000101) = .ok .getMulti ∧
      decode (cmd 0b000000000000000000000_000_00000110 [2]) = .ok (.setMulti 2) ∧
      decode (cmd 0b000000000000000000000_000_00000111 [3]) = .ok (.rateOf 3) := by decide

theorem test_decode_codec :
    decode (cmd 0b000000000000000000000_000_00010000 [1, 2, 3, 4]) = .ok (.encNormal 1 2 3 4) ∧
      decode (cmd 0b000000000000000000000_000_00010001 [7]) = .ok (.encPort 7) ∧
      decode (cmd 0b000000000000000000000_000_00010010 [7]) = .ok (.decTime 7) ∧
      decode (cmd 0b000000000000000000000_000_00010011 [7]) = .ok (.decBytes 7) ∧
      decode (cmd 0b000000000000000000000_000_00010100 [7]) = .ok (.decQlen 7) ∧
      decode (cmd 0b000000000000000000000_000_00010101 [7]) = .ok (.decRate 7) ∧
      decode (cmd 0b000000000000000000000_000_00010110 [7]) = .ok (.decPort 7) ∧
      decode (cmd 0b000000000000000000000_000_00010111 [1, 2]) = .ok (.bytesDelta 1 2) ∧
      decode (cmd 0b000000000000000000000_000_00011000 [1, 2]) = .ok (.timeDelta 1 2) := by decide

theorem test_decode_header :
    decode (bare 0b000000000000000000000_000_00100000) = .ok .hdrClear ∧
      decode (bare 0b000000000000000000000_000_00100001) = .ok .staticSize ∧
      decode (cmd 0b000000000000000000000_000_00100010 [1, 2, 3, 4, 5]) = .ok (.pushHop 1 2 3 4 5) ∧
      decode (bare 0b000000000000000000000_000_00100011) = .ok .getNhop ∧
      decode (bare 0b000000000000000000000_100_00100100) = .ok (.readSlot 4) ∧
      decode (bare 0b000000000000000000000_000_00100101) = .ok .getTs ∧
      decode (cmd 0b000000000000000000000_000_00100110 [9]) = .ok (.setTs 9) ∧
      decode (bare 0b000000000000000000000_000_00100111) = .ok .getPower ∧
      decode (cmd 0b000000000000000000000_000_00101000 [9]) = .ok (.setPower 9) := by decide

theorem test_decode_serdes :
    decode (bare 0b000000000000000000000_000_00110000) = .ok .serialize ∧
      decode (bare 0b000000000000000000000_000_00110001) = .ok .deserialize := by decide

/-- X2, X7, X8: rejected by name. -/
theorem test_decode_rejects_by_name :
    decode (bare 0x00000008) = .error .opcode ∧ decode (bare 0x000000FF) = .error .opcode ∧
      decode (bare 0x00000824) = .error .reserved ∧ decode (cmd 0x00000122 [0, 0, 0, 0, 0]) = .error .slot ∧
      decode (bare 0x00000002) = .error .operandCount := by decide

/-- The opcode table's numbering: the first operand word is bits 95:32. -/
theorem test_decodeTableWord_operands :
    decodeTableWord 32 0x24 = some (.readSlot 0) ∧ decodeTableWord 32 0x22 = some (.pushHop 0 0 0 0 0) ∧
      decodeTableWord 96 (0x02 + 4 * 2 ^ 32) = some (.setMode 4) ∧ decodeTableWord 32 0x00 = none := by decide

/-- R63: the word placed by `withFetchWord` is the one the next step runs, from reset. -/
theorem test_withFetchWord_runs :
    after? (step (State.reset.withFetchWord 96 (0x02 + 4 * 2 ^ 32))) (·.mode) = some .portTrace ∧
      after? (step (State.reset.withFetchWord 32 0x24)) lastResponse = resp .ok [0] := by decide

/-! ### The assembler: the examples of R90 and R91 -/

theorem test_assemble_examples :
    assembleLine "SET_MODE 1".toList = .ok (some (.setMode 1)) ∧
      assembleLine "READ_SLOT 3 ; a comment".toList = .ok (some (.readSlot 3)) ∧
      assembleLine "PUSH_HOP 100, 1280, 800, 100_000_000_000, 0".toList = .ok (some (.pushHop 100 1280 800 rateG 0)) ∧
      assembleLine "PUSH_NORMAL 1, 2, 3, 0x174876E800".toList = .ok (some (.pushHop 1 2 3 rateG 0)) ∧
      assembleLine "PUSH_PORT 7".toList = .ok (some (.pushHop 0 0 0 0 7)) := by decide

/-! ### Configuration -/

/-- R21: operands 1, 2 and 3 by the modes' names. -/
theorem test_setMode_numbering :
    after? (exec (.setMode 1) State.reset) (·.mode) = some .normal ∧
      after? (exec (.setMode 2) State.reset) (·.mode) = some .timestamp ∧
      after? (exec (.setMode 3) State.reset) (·.mode) = some .compressedPower := by decide

/-- C4, C5, C6: 4 is the last legal mode, and 9 is not truncated to 1. -/
theorem witness_SetModeWritesOnlyLegalModes :
    after? (exec (.setMode 4) State.reset) (·.mode) = some .portTrace ∧
      answer? (.setMode 5) (inMode .portTrace) = resp .errCfg [] ∧
      after? (exec (.setMode 9) (inMode .portTrace)) (·.mode) = some .portTrace ∧
      after? (exec (.setMode 0) (inMode .portTrace)) (·.mode) = some .disabled := by decide

/-- C7, C8, C9: both legal widths and the values next to them. -/
theorem witness_SetPwidthWritesOnlyOneOrTwo :
    answer? (.setPwidth 0) State.reset = resp .errCfg [] ∧ answer? (.setPwidth 3) State.reset = resp .errCfg [] ∧
      after? (exec (.setPwidth 1) State.reset) (·.pwidth) = some .oneByte ∧
      after? (exec (.setPwidth 2) { State.reset with pwidth := .oneByte }) (·.pwidth) = some .twoBytes := by decide

/-- C10, C11, C12. -/
theorem witness_SetMultiRefusesZeroAndWideOperands :
    answer? (.setMulti 0) State.reset = resp .errCfg [] ∧
      answer? (.setMulti 0x100000000) State.reset = resp .errCfg [] ∧
      after? (exec (.setMulti 0xFFFFFFFF) State.reset) (·.multi) = some 0xFFFFFFFF ∧
      after? (exec (.setMulti 1) { State.reset with multi := 7 }) (·.multi) = some 1 := by decide

/-- C13 to C19. -/
theorem witness_RateOfLooksUpTheTable :
    answer? (.rateOf 0) State.reset = resp .ok [0x00000005D21DBA00] ∧
      answer? (.rateOf 4) State.reset = resp .ok [0x0000005D21DBA000] ∧ answer? (.rateOf 5) State.reset = resp .ok [0] ∧
      answer? (.rateOf 8) State.reset = resp .ok [0] ∧
      answer? (.rateOf 0xFFFFFFFFFFFFFFFF) State.reset = resp .ok [0] := by decide

/-- C1, C2, C3, and the invariant of the third clause. -/
theorem witness_ConfigurationReadsAnswerTheRegister :
    State.reset.fault = none ∧ answer? .getMode State.reset = resp .ok [0] ∧
      answer? .getPwidth State.reset = resp .ok [2] ∧ answer? .getMulti State.reset = resp .ok [1] := by decide

/-- C20: a mode change keeps the storage. -/
theorem witness_ConfigurationCommandsKeepStorageAndStreams :
    configurationCommand (.setMode 2) = true ∧
      after? (exec (.setMode 2) { State.reset with slots := #v[9, 0, 0, 0, 0], nhop := 3 })
        (fun t => (t.slots, t.nhop)) = some (#v[9, 0, 0, 0, 0], 3) := by decide

/-! ### The codec -/

/-- E1, E7, E9, E10: the rates at both ends of the table, and rates that no code has. -/
theorem witness_EncNormalAnswersTheQuantizedRecord :
    rateOf 0 = 25000000000 ∧ rateOf 4 = 400000000000 ∧
      answer? (.encNormal 0 256 0 rateG) State.reset = resp .ok [0x4000000002000000] ∧
      answer? (.encNormal 0 0 0 400000000000) State.reset = resp .ok [0x8000000000000000] ∧
      (∀ k : BitVec 3, k.toNat ≤ 4 → rateOf k ≠ 0) ∧
      answer? (.encNormal 0 0 0 0) State.reset = resp .errRate [0] ∧
      answer? (.encNormal 0 0 0 100000000001) State.reset = resp .errRate [0] := by decide

/-- E18 and E19: every field at once, and every quotient wrapped. -/
theorem test_encNormal_fields :
    answer? (.encNormal 0xABCDEF 3840 5600 200000000000) State.reset = resp .ok [0x600460001EABCDEF] ∧
      answer? (.encNormal 0xFFFFFFFFFFFFFFFF 0xFFFFFFFFFFFFFFFF 0xFFFFFFFFFFFFFFFF 25000000000) State.reset =
        resp .ok [0x13333FFFFFFFFFFF] := by decide

/-- E18 and E1 under `RATE_LOW`. -/
theorem test_encNormal_rateLow :
    answer? (.encNormal 0xABCDEF 3840 5600 200000000000) { State.reset with params := { hopLayout := .rateLow } } =
        resp .ok [0x00230000F55E6F7B] ∧
      answer? (.encNormal 0 256 0 rateG) { State.reset with params := { hopLayout := .rateLow } } =
        resp .ok [0x0000000010000002] := by decide

/-- E23 and D5. -/
theorem witness_PortCodecIsVerbatim :
    answer? (.encPort 0xFFFFFFFFFFFFFFFF) State.reset = resp .ok [0xFFFFFFFFFFFFFFFF] ∧
      answer? (.decPort 0x600460001EABCDEF) State.reset = resp .ok [0x600460001EABCDEF] := by decide

/-- D1 to D4, and D9: the reserved rate code 7. -/
theorem witness_DecodersInvertEachField :
    answer? (.decTime 0x600460001EABCDEF) State.reset = resp .ok [0xABCDEF] ∧
      answer? (.decBytes 0x600460001EABCDEF) State.reset = resp .ok [3840] ∧
      answer? (.decQlen 0x600460001EABCDEF) State.reset = resp .ok [5600] ∧
      answer? (.decRate 0x600460001EABCDEF) State.reset = resp .ok [200000000000] ∧
      answer? (.decRate 0xFFFFFFFFFFFFFFFF) State.reset = resp .ok [0] := by decide

/-- D12, D13: the largest results. -/
theorem test_decoders_at_the_largest_multi :
    answer? (.decBytes 0xFFFFFFFFFFFFFFFF) { State.reset with multi := 0xFFFFFFFF } = resp .ok [0x07FFFF7FF8000080] ∧
      answer? (.decQlen 0xFFFFFFFFFFFFFFFF) { State.reset with multi := 0xFFFFFFFF } = resp .ok [0x009FFFAFFF600050] := by
  decide

/-- T1, T2, T3 and T6: wrapped, reversed, equal, and the unit under `MULTI` = 2. -/
theorem witness_BytesDeltaIsModuloTwoToTheTwenty :
    answer? (.bytesDelta 0 0x00000FFFFF000000) State.reset = resp .ok [128] ∧
      answer? (.bytesDelta 0x00000FFFFF000000 0) State.reset = resp .ok [134217600] ∧
      answer? (.bytesDelta 0x0000000005000000 0x0000000005000000) State.reset = resp .ok [0] ∧
      answer? (.bytesDelta 0 0x00000FFFFF000000) { State.reset with multi := 2 } = resp .ok [256] := by decide

/-- T8, T9, T11. -/
theorem witness_TimeDeltaIsModuloTwoToTheTwentyFour :
    answer? (.timeDelta 5 0xFFFFFD) State.reset = resp .ok [8] ∧
      answer? (.timeDelta 0xFFFFFD 5) State.reset = resp .ok [16777208] ∧
      answer? (.timeDelta 0x1234 0x1234) State.reset = resp .ok [0] := by decide

/-- E17, D2, D3 and T7: the round trip at the largest quotients, a smaller one, and the largest delta. -/
theorem witness_EncodeThenDecodeTruncatesToUnits :
    exec (.encNormal 0xFFFFFF 134217600 10485680 400000000000) State.reset =
        .next (answered State.reset .ok [0x9FFFFFFFFFFFFFFF]) ∧
      (134217600 : Word).toNat / (128 * 1) = 2 ^ 20 - 1 ∧ (10485680 : Word).toNat / (80 * 1) = 2 ^ 17 - 1 ∧
      answer? (.decBytes 0x9FFFFFFFFFFFFFFF) State.reset = resp .ok [134217600] ∧
      answer? (.decQlen 0x9FFFFFFFFFFFFFFF) State.reset = resp .ok [10485680] ∧
      answer? (.decTime 0x9FFFFFFFFFFFFFFF) State.reset = resp .ok [0xFFFFFF] ∧
      answer? (.bytesDelta 0x00000FFFFF000000 0) { State.reset with multi := 0xFFFFFFFF } =
        resp .ok [576460202413392000] ∧
      answer? (.decRate 0x9FFFFFFFFFFFFFFF) State.reset = resp .ok [4 * 10 ^ 11] := by
  refine ⟨rfl, ?_⟩
  decide

theorem witness_CodecCommandsIgnoreTheMode :
    codecCommand (.decPort 5) = true ∧ (next? (exec (.decPort 5) (inMode .disabled))).isSome = true ∧
      answer? (.decPort 5) (inMode .timestamp) = resp .ok [5] := by decide

/-! ### The header and the ring -/

/-- H1. -/
theorem witness_HdrClearMakesTheHeaderFresh :
    after? (exec .hdrClear { State.reset with slots := #v[1, 2, 3, 4, 5], nhop := 65535 })
      (fun t => (t.slots, t.nhop)) = some (#v[0, 0, 0, 0, 0], 0) := by decide

/-- H10 to H13. -/
theorem witness_StaticSizeFollowsTheMode :
    answer? .staticSize (inMode .disabled) = resp .ok [0] ∧ answer? .staticSize (inMode .normal) = resp .ok [42] ∧
      answer? .staticSize (inMode .portTrace) = resp .ok [42] ∧ answer? .staticSize (inMode .timestamp) = resp .ok [8] ∧
      answer? .staticSize { inMode .compressedPower with pwidth := .oneByte } = resp .ok [1] ∧
      answer? .staticSize (inMode .compressedPower) = resp .ok [2] := by decide

/-- H9, H5, H6 and H7: a clause each. -/
theorem witness_PushHopWritesTheSlotAtNhopModFive :
    after? (exec (.pushHop 7 0 0 rateG 0) { inMode .normal with nhop := 12 }) (fun t => (t.slots, t.nhop)) =
        some (#v[0, 0, 0x4000000000000007, 0, 0], 13) ∧
      (answer? (.pushHop 0 0 0 0 5) (inMode .normal) = resp .errRate [] ∧
        ∀ k : BitVec 3, k.toNat ≤ 4 → rateOf k ≠ 0) ∧
      after? (exec (.pushHop 0 0 0 1 0xDEAD) (inMode .portTrace)) (fun t => (t.slots, t.nhop)) =
        some (#v[0xDEAD, 0, 0, 0, 0], 1) ∧
      after? (exec (.pushHop 1 2 3 rateG 4) (inMode .timestamp)) (fun t => (t.slots, t.nhop)) =
        some (#v[0, 0, 0, 0, 0], 0) := by decide

/-- H2, H3: the worked record of one push, and the one after it. -/
theorem test_pushHop_records :
    after? (exec (.pushHop 100 1280 800 rateG 0) (inMode .normal)) (·.slots) =
        some #v[0x4000A0000A000064, 0, 0, 0, 0] ∧
      after? (exec (.pushHop 101 2560 1600 rateG 0) { inMode .normal with nhop := 1 }) (fun t => (t.slots, t.nhop)) =
        some (#v[0, 0x4001400014000065, 0, 0, 0], 2) := by decide

/-- H14, H15, H16: slots 4 and 5 are the two sides of the bound. -/
theorem witness_NhopAndSlotsAreReadInEveryMode :
    answer? .getNhop { State.reset with nhop := 7 } = resp .ok [7] ∧
      answer? (.readSlot 4) { State.reset with slots := #v[1, 2, 3, 4, 5] } = resp .ok [5] ∧
      answer? (.readSlot 5) State.reset = resp .errSlot [0] ∧ answer? (.readSlot 7) State.reset = resp .errSlot [0] := by
  decide

/-- H17 to H20. -/
theorem witness_TimestampAccessorsAreModeGated :
    after? (exec (.setTs 0x0102030405060708) (inMode .timestamp)) (·.slots) =
        some #v[0x0102030405060708, 0, 0, 0, 0] ∧
      answer? .getTs { inMode .timestamp with slots := #v[5, 0, 0, 0, 0] } = resp .ok [5] ∧
      answer? .getTs { inMode .normal with slots := #v[5, 0, 0, 0, 0] } = resp .ok [0] ∧
      after? (exec (.setTs 9) (inMode .compressedPower)) (·.slots) = some #v[0, 0, 0, 0, 0] := by decide

/-- H21 to H25. -/
theorem witness_PowerAccessorsUseTheLowBytesOfSlotZero :
    after? (exec (.setPower 0x1234) { inMode .compressedPower with slots := #v[0x0102030405060708, 0, 0, 0, 0] })
        (·.slots) = some #v[0x0102030405061234, 0, 0, 0, 0] ∧
      answer? .getPower { inMode .compressedPower with pwidth := .oneByte, slots := #v[0x0102030405061234, 0, 0, 0, 0] } =
        resp .ok [0x34] ∧
      after? (exec (.setPower 0x1234) { inMode .compressedPower with pwidth := .oneByte }) (·.slots) =
        some #v[0x34, 0, 0, 0, 0] ∧
      answer? .getPower { inMode .timestamp with slots := #v[5, 0, 0, 0, 0] } = resp .ok [0] := by decide

/-- R91, H5. -/
theorem witness_PseudoCommandsExpandToPushHop :
    (inMode .normal).fault = none ∧ answer? (pushPort 5) (inMode .normal) = resp .errRate [] := by decide

/-! ### Sequences of pushes -/

/-- A PortTrace push extends a run of pushes. -/
theorem pushRun_portTrace {s t : State} {xs : List Word} (h : PushRun s xs t) (hf : t.fault = none)
    (hm : t.mode = .portTrace) (p : Word) : PushRun s (xs ++ [p]) (answered (pushSlot t p) .ok []) :=
  .push h ⟨0, 0, 0, 0, p, rfl, .inl ⟨hm, rfl⟩⟩ (exec_pushHop_portTrace hf hm)

/-- From reset in PortTrace mode there is a run of any number of pushes. -/
theorem pushRun_of_length (n : Nat) :
    ∃ xs t, PushRun (inMode .portTrace) xs t ∧ xs.length = n ∧ t.fault = none ∧ t.mode = .portTrace := by
  induction n with
  | zero => exact ⟨[], _, .start, rfl, rfl, rfl⟩
  | succ n ih =>
    obtain ⟨xs, t, h, hn, hf, hm⟩ := ih
    exact ⟨_, _, pushRun_portTrace h hf hm 0, by rw [List.length_append, hn]; rfl, hf, hm⟩

theorem inMode_fresh (m : Mode) : FreshHeader (inMode m) := ⟨by intro j; simp [inMode, State.reset], rfl⟩

/-- The first length, the last length of the third clause and the one after it. -/
theorem witness_RingHoldsTheLastPushes (n : Nat) (_ : n = 0 ∨ n = 2 ^ 16 ∨ n = 2 ^ 16 + 1) :
    ∃ xs t, FreshHeader (inMode .portTrace) ∧ PushRun (inMode .portTrace) xs t ∧ xs.length = n ∧
      Pushes t (.pushHop 0 0 0 0 9) 9 ∧ ∃ u, exec (.pushHop 0 0 0 0 9) t = .next u := by
  obtain ⟨xs, t, h, hn, hf, hm⟩ := pushRun_of_length n
  exact ⟨xs, t, inMode_fresh _, h, hn, ⟨0, 0, 0, 0, 9, rfl, .inl ⟨hm, rfl⟩⟩, _, exec_pushHop_portTrace hf hm⟩

/-- Any other command that completes extends a run without a push. -/
theorem witness_PushRun_other : PushRun (inMode .normal) [] (answered (inMode .normal) .ok [0]) :=
  .other (i := .getNhop) .start (by rintro x ⟨a, b, c, d, e, h, -⟩; cases h) (by decide) (by decide)
    (fun _ h => by cases h) (fun _ h => by cases h) rfl

/-- Both ends of the range of lengths. -/
theorem witness_OldestRecordIsAtNhopModFive (n : Nat) (hn : n = 5 ∨ n = 2 ^ 16 - 1) :
    ∃ xs t, ∃ j : Fin 5, FreshHeader (inMode .portTrace) ∧ PushRun (inMode .portTrace) xs t ∧ 5 ≤ xs.length ∧
      xs.length < 2 ^ 16 ∧ j.val = t.nhop.toNat % 5 := by
  obtain ⟨xs, t, h, hx, -, -⟩ := pushRun_of_length n
  exact ⟨xs, t, ⟨t.nhop.toNat % 5, Nat.mod_lt _ (by decide)⟩, inMode_fresh _, h, by omega, by omega, rfl⟩

/-- P5: the push at `NHOP` = 65535 and the one after it. -/
theorem witness_NhopWrapWritesSlotZeroTwice :
    ({ inMode .portTrace with nhop := 65535 } : State).nhop.toNat = 65535 ∧
      Pushes { inMode .portTrace with nhop := 65535 } (.pushHop 0 0 0 0 1) 1 ∧
      after? (exec (.pushHop 0 0 0 0 1) { inMode .portTrace with nhop := 65535 }) (fun t => (t.slots, t.nhop)) =
        some (#v[1, 0, 0, 0, 0], 0) ∧
      Pushes { inMode .portTrace with nhop := 0 } (.pushHop 0 0 0 0 2) 2 :=
  ⟨rfl, ⟨0, 0, 0, 0, 1, rfl, .inl ⟨rfl, rfl⟩⟩, by decide, ⟨0, 0, 0, 0, 2, rfl, .inl ⟨rfl, rfl⟩⟩⟩

/-! ### Serialize and deserialize -/

/-- The bytes of S2. -/
def ringBytes : List Byte :=
  [0x64, 0x00, 0x00, 0x0A, 0x00, 0xA0, 0x00, 0x40, 0x65, 0x00, 0x00, 0x14, 0x00, 0x40, 0x01, 0x40] ++
    List.replicate 24 0 ++ [0x02, 0x00]

/-- The slots of S2 and S6. -/
def ringSlots : Vector Word maxHop := #v[0x4000A0000A000064, 0x4001400014000065, 0, 0, 0]

/-- S2, S3 and S11: the ring, the timestamp after what `OUTQ` held, and nothing. -/
theorem witness_SerializeAppendsTheWireImage :
    after? (exec .serialize { inMode .normal with slots := ringSlots, nhop := 2 }) (·.outq) = some ringBytes ∧
      after? (exec .serialize { inMode .timestamp with slots := #v[0x0102030405060708, 0, 0, 0, 0], outq := [0xFF] })
        (·.outq) = some [0xFF, 0x08, 0x07, 0x06, 0x05, 0x04, 0x03, 0x02, 0x01] ∧
      after? (exec .serialize (inMode .disabled)) (·.outq) = some [] := by decide

/-- S4, S5: the power widths. -/
theorem test_serialize_power :
    after? (exec .serialize { inMode .compressedPower with slots := #v[0xBEEF, 0, 0, 0, 0] }) (·.outq) =
        some [0xEF, 0xBE] ∧
      after? (exec .serialize { inMode .compressedPower with pwidth := .oneByte, slots := #v[0xEF, 0, 0, 0, 0] })
        (·.outq) = some [0xEF] := by decide

/-- S6, S7, S9 and S10: the modes, with bytes left over and with none. -/
theorem witness_DeserializeLoadsTheWireImage :
    after? (exec .deserialize { inMode .normal with inq := ringBytes }) (fun t => (t.slots, t.nhop, t.inq)) =
        some (ringSlots, 2, []) ∧
      after? (exec .deserialize { inMode .timestamp with
          inq := [0x08, 0x07, 0x06, 0x05, 0x04, 0x03, 0x02, 0x01, 0xFF], slots := #v[0, 7, 7, 7, 7], nhop := 3 })
        (fun t => (t.slots, t.nhop, t.inq)) = some (#v[0x0102030405060708, 7, 7, 7, 7], 3, [0xFF]) ∧
      after? (exec .deserialize { inMode .compressedPower with
          pwidth := .oneByte, inq := [0x12], slots := #v[0xBEEF, 0, 0, 0, 0] }) (·.slots) =
        some #v[0xBE12, 0, 0, 0, 0] ∧
      answer? .deserialize (inMode .disabled) = resp .ok [0] := by decide

/-- S12 and S13: one byte too few, for 2 bytes and for 42. -/
theorem witness_UnderrunSetsTheFaultAndNothingElse :
    exec .deserialize { inMode .compressedPower with inq := [0x34] } =
        .next { inMode .compressedPower with inq := [0x34], fault := some .cursorUnderrun } ∧
      (ringBytes.take 41).length < wireSize (inMode .normal) ∧
      after? (exec .deserialize { inMode .normal with inq := ringBytes.take 41 }) (fun t => (t.fault, t.inq, t.ci)) =
        some (some .cursorUnderrun, ringBytes.take 41, 0) := by
  refine ⟨rfl, ?_⟩
  decide

/-- S2 and S6 together, into another machine whose storage is not fresh. -/
theorem witness_SerializeThenDeserializeRestoresThePayload :
    after? (exec .serialize { inMode .normal with slots := ringSlots, nhop := 2 }) (·.outq) = some ([] ++ ringBytes) ∧
      after? (exec .deserialize { inMode .normal with slots := #v[1, 2, 3, 4, 5], nhop := 9, inq := ringBytes ++ [0xFF] })
        (fun t => (t.slots, t.nhop, t.inq)) = some (ringSlots, 2, [0xFF]) := by decide

/-- S1 and S7, S12: the counts. -/
theorem witness_StaticSizeIsTheByteCountMoved :
    answer? .serialize (inMode .normal) = resp .ok [42] ∧
      answer? .deserialize { inMode .timestamp with inq := [8, 7, 6, 5, 4, 3, 2, 1, 0xFF] } = resp .ok [8] ∧
      answer? .deserialize { inMode .timestamp with inq := [8, 7, 6, 5, 4, 3, 2] } = some none := by decide

/-! ### The step, the host, reset and the fault -/

theorem witness_EncodeInvertsDecode : decode (bare 0x00000724) = .ok (.readSlot 7) := by decide

/-- Both ends of every range of R88, the lowest bit of `RSVD` and of `SLOT` on GET_MODE, and the answer. -/
theorem witness_UnlistedOpcodesAreIllegal :
    decode (bare 0x00) = .error .opcode ∧ decode (bare 0x08) = .error .opcode ∧
      decode (bare 0x0F) = .error .opcode ∧ decode (bare 0x19) = .error .opcode ∧
      decode (bare 0x1F) = .error .opcode ∧ decode (bare 0x29) = .error .opcode ∧
      decode (bare 0x2F) = .error .opcode ∧ decode (bare 0x32) = .error .opcode ∧
      decode (bare 0xFF) = .error .opcode ∧ decode (bare 0x801) = .error .reserved ∧
      decode (bare 0x101) = .error .slot ∧
      after? (step (issuing (bare 0x08) State.reset)) lastResponse = resp .errIllegal [] := by decide

theorem witness_StepRunsTheDecodedCommand :
    (issuing (bare 0x00000001) State.reset).host = .issue (bare 0x00000001) :: [] ∧
      decode (bare 0x00000001) = .ok .getMode ∧
      after? (step (issuing (bare 0x00000001) State.reset)) lastResponse = resp .ok [0] := by decide

/-- X8: no push, and X1. -/
theorem witness_IllegalCommandsAreOnlyAnswered :
    (cmd 0x00000122 [0, 0, 0, 0, 0]).legal = false ∧
      after? (step (issuing (cmd 0x00000122 [0, 0, 0, rateG, 0]) (inMode .normal)))
        (fun t => (lastResponse t, t.ci, t.nhop)) = some (some { status := .errIllegal, results := [] }, 1, 0) ∧
      after? (step (issuing (bare 0) State.reset)) lastResponse = resp .errIllegal [] := by decide

/-- A fill, a drain of more than there is, a reset and a wait. -/
theorem witness_StepServesTheHostsOtherActions :
    after? (step { State.reset with inq := [1], host := [.fill [2, 3]] }) (·.inq) = some [1, 2, 3] ∧
      after? (step { State.reset with outq := [1, 2, 3], host := [.drain 2] }) (·.outq) = some [3] ∧
      after? (step { State.reset with outq := [1], host := [.drain 2] }) (·.outq) = some [] ∧
      after? (step { inMode .timestamp with host := [.reset, .fill []] }) (fun t => (t.mode, t.host)) =
        some (.disabled, [.fill []]) ∧
      next? (step State.reset) = some State.reset := by decide

theorem witness_StepTakesOneActionAndKeepsTheLayout :
    after? (step { State.reset with params := { hopLayout := .rateLow }, host := [.reset, .drain 0] })
      (fun t => (t.params.hopLayout, t.host)) = some (.rateLow, [.drain 0]) := by decide

/-- One step of each kind: completed, faulted, reset, fill, wait. -/
theorem witness_CommandIndexCountsCompletedCommands :
    after? (step (issuing (bare 0x01) { State.reset with ci := 4 })) (·.ci) = some 5 ∧
      after? (step (issuing (bare 0x31) { inMode .normal with ci := 4 })) (fun t => (t.fault, t.ci)) =
        some (some .cursorUnderrun, 4) ∧
      after? (step { State.reset with ci := 4, host := [.reset] }) (·.ci) = some 0 ∧
      after? (step { State.reset with ci := 4, host := [.fill [1]] }) (·.ci) = some 4 ∧
      after? (step { State.reset with ci := 4 }) (·.ci) = some 4 := by decide

/-- A reset leaves the fault state. -/
theorem witness_ResetPutsEveryRegisterAtItsResetValue :
    after? (step { inMode .normal with fault := some .cursorUnderrun, multi := 9, inq := [1], host := [.reset] })
      (fun t => (t.fault, t.mode, t.multi, t.inq)) = some (none, .disabled, 1, []) := by decide

/-- R264: GET_MODE and then a fill end the run at `CI` = 1, before the fill; a reset listed later begins another run, whose
commands do not count; a fault is no end. -/
theorem witness_RunEndsNormallyWhenItsCommandsAreCompleted :
    commandsToCome [.fill [1], .issue (bare 0x01), .fill [2], .reset, .issue (bare 0x01)] = 1 ∧
      InRun Params.default [.issue (bare 0x01), .fill [2]]
        (answered (runStart Params.default [.fill [2]]) .ok [0]) ∧
      endsNormally 1 (answered (runStart Params.default [.fill [2]]) .ok [0]) = true ∧
      InRun Params.default [.issue (bare 0x31)] (runStart Params.default [.issue (bare 0x31)]) ∧
      endsNormally 1 (runStart Params.default [.issue (bare 0x31)]) = false ∧
      endsNormally 0 (runStart Params.default [.fill [2]]) = true ∧
      endsNormally 0 { State.reset with fault := some .cursorUnderrun } = false :=
  ⟨by decide, .goOn .start (by decide) rfl, by decide, .start, by decide, by decide, by decide⟩

/-- R264, P5: a run that faults, which is stuck and no normal end. -/
theorem witness_InRun_faulted :
    ∃ s, InRun Params.default [.issue (cmd 0x02 [1]), .issue (bare 0x31)] s ∧ s.fault ≠ none ∧
      endsNormally 2 s = false :=
  ⟨_, .goOn (.goOn .start (by decide) rfl) (by decide) rfl, by decide, by decide⟩

/-- P5: the command after the underrun has no step, and a fill keeps the fault. -/
theorem witness_FaultedMachineTakesNoCommand :
    step (issuing (bare 0x01) { State.reset with fault := some .cursorUnderrun }) = .fault .cursorUnderrun ∧
      step (issuing (bare 0x00) { State.reset with fault := some .cursorUnderrun }) = .fault .cursorUnderrun ∧
      after? (step { State.reset with fault := some .cursorUnderrun, host := [.fill [1]] }) (fun t => (t.fault, t.inq)) =
        some (some .cursorUnderrun, [1]) :=
  ⟨rfl, rfl, by decide⟩

/-- Both ways the fault changes, and a command while it is set. -/
theorem witness_FaultChangesOnlyByUnderrunOrReset :
    after? (step (issuing (bare 0x31) (inMode .timestamp))) (·.fault) = some (some .cursorUnderrun) ∧
      after? (step { State.reset with fault := some .cursorUnderrun, host := [.reset] }) (·.fault) = some none ∧
      exec .getMode { State.reset with fault := some .cursorUnderrun } = .fault .cursorUnderrun :=
  ⟨by decide, by decide, rfl⟩

/-! ### Rules about every command -/

theorem witness_ReadingCommandsOnlyAnswer :
    onlyAnswers (.readSlot 5) = true ∧ (next? (exec (.readSlot 5) State.reset)).isSome = true ∧
      after? (exec .serialize (inMode .compressedPower)) (·.outq) = some [0, 0] ∧
      after? (exec .serialize { inMode .compressedPower with outq := [0, 0] }) (·.outq) = some [0, 0, 0, 0] ∧
      after? (exec .deserialize { inMode .compressedPower with inq := [1, 2, 3] }) (fun t => (t.fault, t.inq)) =
        some (none, [3]) := by decide

theorem witness_ResponseCarriesTheOpcodesResultCount :
    after? (exec (.encNormal 0 0 0 1) State.reset) (fun t => (t.fault, lastResponse t)) =
        some (none, some { status := .errRate, results := [0] }) ∧
      after? (exec (.pushHop 0 0 0 1 0) (inMode .normal)) lastResponse = resp .errRate [] ∧
      after? (exec .deserialize (inMode .normal)) (fun t => (t.fault, t.responses)) = some (some .cursorUnderrun, []) ∧
      (bare 0).legal = false ∧
      after? (step (issuing (bare 0) State.reset)) (·.responses) = some [{ status := .errIllegal, results := [] }] := by
  decide

/-- One command for each error status of R220. -/
theorem witness_ErrorStatusesChangeNothing :
    answer? (.readSlot 6) State.reset = resp .errSlot [0] ∧ answer? (.setMode 5) State.reset = resp .errCfg [] ∧
      answer? (.encNormal 0 0 0 0) State.reset = resp .errRate [0] ∧
      answer? (.pushHop 0 0 0 0 0) (inMode .normal) = resp .errRate [] := by decide

theorem witness_ConfigurationIsWrittenOnlyByItsSetters :
    (after? (exec (.setMode 1) State.reset) (·.mode) = some .normal ∧ State.reset.mode ≠ .normal) ∧
      (after? (exec (.setPwidth 1) State.reset) (·.pwidth) = some .oneByte ∧ State.reset.pwidth ≠ .oneByte) ∧
      (after? (exec (.setMulti 2) State.reset) (·.multi) = some 2 ∧ State.reset.multi ≠ 2) := by decide

/-- S14, H8 and H1: the ways `NHOP` changes. -/
theorem witness_NhopIsWrittenInFourWaysOnly :
    after? (exec .deserialize { inMode .normal with inq := List.replicate 40 0 ++ [0xFF, 0xFF] }) (·.nhop) =
        some 65535 ∧
      after? (exec (.pushHop 0 0 0 rateG 0) { inMode .normal with nhop := 65535 }) (·.nhop) = some 0 ∧
      after? (exec .hdrClear { State.reset with nhop := 3 }) (·.nhop) = some 0 ∧
      after? (step { State.reset with nhop := 3, host := [.reset] }) (·.nhop) = some 0 ∧
      after? (step (issuing (bare 0x20) { State.reset with nhop := 3 })) (·.nhop) = some 0 := by decide

/-- Every command that writes a slot or a stream, doing so; the push and DESERIALIZE each at the last slot too. -/
theorem witness_SlotsAndStreamsAreWrittenOnlyByTheirCommands :
    after? (exec (.setTs 1) (inMode .timestamp)) (·.slots) = some #v[1, 0, 0, 0, 0] ∧
      after? (exec (.setPower 1) (inMode .compressedPower)) (·.slots) = some #v[1, 0, 0, 0, 0] ∧
      after? (exec (.pushHop 0 0 0 0 1) (inMode .portTrace)) (·.slots) = some #v[1, 0, 0, 0, 0] ∧
      after? (exec .hdrClear { State.reset with slots := #v[1, 1, 1, 1, 1] }) (·.slots) = some #v[0, 0, 0, 0, 0] ∧
      after? (exec (.pushHop 0 0 0 0 1) { inMode .portTrace with nhop := 4 }) (·.slots) = some #v[0, 0, 0, 0, 1] ∧
      after? (exec .deserialize { inMode .portTrace with inq := List.replicate 32 0 ++ [1] ++ List.replicate 9 0 })
        (·.slots) = some #v[0, 0, 0, 0, 1] ∧
      after? (exec .deserialize { inMode .timestamp with inq := [1, 0, 0, 0, 0, 0, 0, 0] }) (·.slots) =
        some #v[1, 0, 0, 0, 0] ∧
      after? (exec .serialize (inMode .compressedPower)) (·.outq) = some [0, 0] ∧
      after? (exec .deserialize { inMode .compressedPower with inq := [1, 0] }) (fun t => (t.inq, t.slots)) =
        some ([], #v[1, 0, 0, 0, 0]) := by decide

theorem witness_StepKeepsTheInvariant :
    Inv { inMode .normal with ci := 1, responses := [{ status := .ok, results := [] }], host := [.issue (bare 0x23)] } ∧
      after? (step { inMode .normal with
          ci := 1, responses := [{ status := .ok, results := [] }], host := [.issue (bare 0x23)] }) (·.ci) = some 2 :=
  ⟨⟨by decide, rfl, by decide⟩, by decide⟩

end Sys2Proof.Tests
end

section
/-! PROOFS. The hop record: packing and extracting are inverse (R92, R93), so a record is known by its four fields, and
`encodeNormal?` makes exactly the records that R142 describes. -/

namespace Sys2Proof.Machine

theorem pack_docOrder_toNat (t : BitVec 24) (b : BitVec 20) (q : BitVec 17) (r : BitVec 3) :
    (pack .docOrder t b q r).toNat = t.toNat + b.toNat * 2 ^ 24 + q.toNat * 2 ^ 44 + r.toNat * 2 ^ 61 := by
  simp only [pack, BitVec.toNat_append]
  rw [← Nat.shiftLeft_add_eq_or_of_lt t.isLt, ← Nat.shiftLeft_add_eq_or_of_lt b.isLt,
    ← Nat.shiftLeft_add_eq_or_of_lt q.isLt]
  simp only [Nat.shiftLeft_eq]
  omega

theorem pack_rateLow_toNat (t : BitVec 24) (b : BitVec 20) (q : BitVec 17) (r : BitVec 3) :
    (pack .rateLow t b q r).toNat = r.toNat + t.toNat * 2 ^ 3 + b.toNat * 2 ^ 27 + q.toNat * 2 ^ 47 := by
  simp only [pack, BitVec.toNat_append]
  rw [← Nat.shiftLeft_add_eq_or_of_lt r.isLt, ← Nat.shiftLeft_add_eq_or_of_lt t.isLt,
    ← Nat.shiftLeft_add_eq_or_of_lt b.isLt]
  simp only [Nat.shiftLeft_eq]
  omega

/-- R93: where each field of a record starts, in both layouts. -/
theorem fields_docOrder_toNat (x : Word) :
    (fTime .docOrder x).toNat = x.toNat % 2 ^ 24 ∧ (fBytes .docOrder x).toNat = x.toNat / 2 ^ 24 % 2 ^ 20 ∧
      (fQlen .docOrder x).toNat = x.toNat / 2 ^ 44 % 2 ^ 17 ∧ (fRate .docOrder x).toNat = x.toNat / 2 ^ 61 % 2 ^ 3 := by
  simp [fTime, fBytes, fQlen, fRate, BitVec.extractLsb'_toNat, Nat.shiftRight_eq_div_pow]

theorem fields_rateLow_toNat (x : Word) :
    (fTime .rateLow x).toNat = x.toNat / 2 ^ 3 % 2 ^ 24 ∧ (fBytes .rateLow x).toNat = x.toNat / 2 ^ 27 % 2 ^ 20 ∧
      (fQlen .rateLow x).toNat = x.toNat / 2 ^ 47 % 2 ^ 17 ∧ (fRate .rateLow x).toNat = x.toNat % 2 ^ 3 := by
  simp [fTime, fBytes, fQlen, fRate, BitVec.extractLsb'_toNat, Nat.shiftRight_eq_div_pow]

/-- R93: a record is the packing of its four fields. -/
theorem pack_fields (lay : HopLayout) (x : Word) :
    pack lay (fTime lay x) (fBytes lay x) (fQlen lay x) (fRate lay x) = x := by
  have hx := x.isLt
  apply BitVec.eq_of_toNat_eq
  cases lay with
  | docOrder =>
    obtain ⟨ht, hb, hq, hr⟩ := fields_docOrder_toNat x
    rw [pack_docOrder_toNat, ht, hb, hq, hr]
    omega
  | rateLow =>
    obtain ⟨ht, hb, hq, hr⟩ := fields_rateLow_toNat x
    rw [pack_rateLow_toNat, ht, hb, hq, hr]
    omega

/-- R93: the fields of a packed record are the ones it was packed from. -/
theorem fields_pack (lay : HopLayout) (t : BitVec 24) (b : BitVec 20) (q : BitVec 17) (r : BitVec 3) :
    fTime lay (pack lay t b q r) = t ∧ fBytes lay (pack lay t b q r) = b ∧ fQlen lay (pack lay t b q r) = q ∧
      fRate lay (pack lay t b q r) = r := by
  have ht := t.isLt
  have hb := b.isLt
  have hq := q.isLt
  have hr := r.isLt
  simp only [← BitVec.toNat_inj]
  cases lay with
  | docOrder =>
    obtain ⟨ht', hb', hq', hr'⟩ := fields_docOrder_toNat (pack .docOrder t b q r)
    rw [ht', hb', hq', hr', pack_docOrder_toNat]
    omega
  | rateLow =>
    obtain ⟨ht', hb', hq', hr'⟩ := fields_rateLow_toNat (pack .rateLow t b q r)
    rw [ht', hb', hq', hr', pack_rateLow_toNat]
    omega

theorem pack_eq_iff {lay : HopLayout} {t : BitVec 24} {b : BitVec 20} {q : BitVec 17} {r : BitVec 3} {x : Word} :
    pack lay t b q r = x ↔ fTime lay x = t ∧ fBytes lay x = b ∧ fQlen lay x = q ∧ fRate lay x = r := by
  constructor
  · rintro rfl
    exact fields_pack lay t b q r
  · rintro ⟨rfl, rfl, rfl, rfl⟩
    exact pack_fields lay x

/-- R141, R142: a record of a sample is the packing of its quantized fields. -/
theorem isRecordOf_iff {s : State} {time bytes qlen : Word} {c : BitVec 3} {x : Word} :
    IsRecordOf s time bytes qlen c x ↔
      pack s.params.hopLayout (qTime time) (qBytes s.multi bytes) (qQlen s.multi qlen) c = x := by
  rw [pack_eq_iff, IsRecordOf]
  simp only [← BitVec.toNat_inj (x := fTime _ _), ← BitVec.toNat_inj (x := fBytes _ _),
    ← BitVec.toNat_inj (x := fQlen _ _), qTime, qBytes, qQlen, byteUnit, qlenUnit, BitVec.toNat_setWidth,
    BitVec.toNat_ofNat]

theorem encodeNormal?_eq_some {s : State} {time bytes qlen rate x : Word} :
    encodeNormal? s time bytes qlen rate = some x ↔
      ∃ c : BitVec 3, c.toNat ≤ 4 ∧ rateOf c = rate ∧ IsRecordOf s time bytes qlen c x := by
  simp only [encodeNormal?, Option.map_eq_some_iff, codeOf_eq_some, isRecordOf_iff, and_assoc]

end Sys2Proof.Machine
end

section
/-! PROOFS. What the commands write of the configuration registers and of `NHOP` (R21 to R23, R29), the line-rate table,
and what every step keeps: the count of responses, `FAULT` and the invariant (R31, R33, R86). -/

namespace Sys2Proof.Machine

/-! ### The line-rate table -/

theorem rateOf_of_gt {c : BitVec 3} (h : 4 < c.toNat) : rateOf c = 0 := by
  revert c
  decide

/-- R126: RATE_OF's table look-up, entry by entry. -/
theorem rateOf_operand (a : Word) :
    (if a.toNat < 8 then rateOf (a.extractLsb' 0 3) else 0) =
      if a = 0 then 25000000000 else if a = 1 then 50000000000 else if a = 2 then 100000000000
        else if a = 3 then 200000000000 else if a = 4 then 400000000000 else 0 := by
  by_cases hle : a.toNat ≤ 4
  · obtain ⟨n, hn, rfl⟩ : ∃ n ≤ 4, a = BitVec.ofNat 64 n := ⟨a.toNat, hle, by simp⟩
    interval_cases n <;> decide
  · have hne : ∀ n : Word, n.toNat ≤ 4 → a ≠ n := by
      rintro n hn rfl
      exact hle hn
    rw [if_neg (hne 0 (by decide)), if_neg (hne 1 (by decide)), if_neg (hne 2 (by decide)),
      if_neg (hne 3 (by decide)), if_neg (hne 4 (by decide))]
    split
    · apply rateOf_of_gt
      rw [BitVec.extractLsb'_toNat, Nat.shiftRight_zero]
      omega
    · rfl

/-- R81: a transaction whose command word holds the opcode alone spells what the opcode map makes of its operands. -/
theorem spelledBy_of_decodeOpcode {i : Instr} {o : BitVec 8} {w : BitVec 32} {ops : List Word}
    (hw : commandWord 0 o = w) (h : decodeOpcode o 0 ops = .ok i) : SpelledBy i w ops := by
  rw [SpelledBy, ← hw, decode_commandWord, if_pos (.inl rfl), h]

/-- Settles O20: the table by evaluation, the operand by `rateOf_operand`. -/
theorem rateOfLooksUpTheTable : Obligations.RateOfLooksUpTheTable := by
  refine ⟨by decide, fun _ => spelledBy_of_decodeOpcode (o := 0x07) (by decide) rfl, fun s a hf => ?_⟩
  rw [exec_rateOf hf, rateOf_operand]

/-! ### The configuration registers -/

/-- R21, R22, R23: each configuration register keeps its value under every command but its own setter. -/
theorem exec_configuration {i : Instr} {s t : State} (h : exec i s = .next t) :
    (t.mode = s.mode ∨ ∃ a, i = .setMode a) ∧ (t.pwidth = s.pwidth ∨ ∃ a, i = .setPwidth a) ∧
      (t.multi = s.multi ∨ ∃ a, i = .setMulti a) := by
  obtain ⟨st, rs, rfl, -⟩ | ⟨a, m, rfl, rfl⟩ | ⟨a, w, rfl, rfl⟩ | ⟨a, m, rfl, rfl⟩ | ⟨rfl, rfl⟩ |
    ⟨a, b, c, d, e, x, rfl, -, rfl⟩ | ⟨a, rfl, -, rfl⟩ | ⟨a, rfl, -, rfl⟩ | ⟨rfl, q, n, rfl⟩ |
    ⟨rfl, rfl | ⟨v, k, q, n, rfl, -⟩⟩ := exec_effects h
  all_goals simp

/-- Settles O47: what a register does not keep, its setter wrote. -/
theorem configurationIsWrittenOnlyByItsSetters : Obligations.ConfigurationIsWrittenOnlyByItsSetters := by
  intro i s t h
  obtain ⟨hm, hp, hu⟩ := exec_configuration h
  exact ⟨hm.resolve_left, hp.resolve_left, hu.resolve_left⟩

/-- R125: SET_MULTI writes a multiplier that is not 0, or refuses. -/
theorem exec_setMulti_next {a : Word} {s t : State} (h : exec (.setMulti a) s = .next t) :
    t.multi = s.multi ∨ t.multi ≠ 0 := by
  have hf := fault_eq_none_of_exec h
  cases hm : multiOfOperand? a with
  | none =>
    rw [exec_setMulti_none hf hm] at h
    cases h
    exact .inl rfl
  | some m =>
    rw [exec_setMulti_some hf hm] at h
    cases h
    obtain ⟨ha, hv⟩ := multiOfOperand?_eq_some.1 hm
    refine .inr ?_
    rintro (rfl : m = 0)
    exact ha hv

theorem exec_multi_ne_zero {i : Instr} {s t : State} (h : exec i s = .next t) (hs : s.multi ≠ 0) : t.multi ≠ 0 := by
  obtain ⟨-, -, hm | ⟨a, rfl⟩⟩ := exec_configuration h
  · rwa [hm]
  · obtain hm | hm := exec_setMulti_next h
    · rwa [hm]
    · exact hm

/-! ### The invariant -/

/-- A command that completes keeps the invariant, when its response has the right shape and `MULTI` is not 0 after it. -/
theorem Inv.of_response {s t : State} {r : Response} (hs : Inv s) (hm : t.multi ≠ 0) (hc : t.ci = s.ci + 1)
    (hr : t.responses = s.responses ++ [r]) (hw : r.wellFormed = true) : Inv t := by
  obtain ⟨-, hci, hall⟩ := hs
  refine ⟨hm, by rw [hc, hr, hci, List.length_append, List.length_singleton], fun x hx => ?_⟩
  rw [hr, List.mem_append, List.mem_singleton] at hx
  obtain hx | rfl := hx
  · exact hall x hx
  · exact hw

/-- Every command keeps the invariant: it completes with a well-formed response, or it raises the fault alone. -/
theorem Inv.of_exec {i : Instr} {s t : State} (hs : Inv s) (h : exec i s = .next t) : Inv t := by
  obtain ⟨-, -, ⟨st, rs, -, hc, hr, hw, -, -⟩ | ⟨-, -, rfl⟩⟩ := exec_next_cases h
  · exact hs.of_response (exec_multi_ne_zero h hs.1) hc hr hw
  · exact hs

theorem inv_resetBy (s : State) : Inv (resetBy s) := by
  refine ⟨?_, rfl, fun r hr => by cases hr⟩
  rw [resetBy_multi]
  decide

/-- Settles O51: the list of responses is empty. -/
theorem resetMeetsTheInvariant : Obligations.ResetMeetsTheInvariant := inv_resetBy State.reset

/-- Settles O50, by the kinds of action a step can serve: the host's own actions touch nothing the invariant speaks of, a
reset establishes it, and a command keeps it. -/
theorem stepKeepsTheInvariant : Obligations.StepKeepsTheInvariant := by
  intro s t hs h
  obtain ⟨-, rfl⟩ | ⟨bytes, rest, -, rfl⟩ | ⟨n, rest, -, rfl⟩ | ⟨rest, -, rfl⟩ | ⟨c, rest, i, -, -, he⟩ |
    ⟨c, rest, cause, -, -, -, rfl⟩ := step_next_cases h
  · exact hs
  · exact hs
  · exact hs
  · exact inv_resetBy _
  · exact Inv.of_exec (s := { s with host := rest }) hs he
  · exact hs.of_response hs.1 rfl rfl rfl

/-! ### `CI` and `FAULT` -/

/-- R33: a command that completes advances `CI` by 1, and one that raises the fault keeps it. -/
theorem exec_ci {i : Instr} {s t : State} (h : exec i s = .next t) :
    (t.fault = none ∧ t.ci = s.ci + 1) ∨ (s.fault = none ∧ t.fault = some .cursorUnderrun ∧ t.ci = s.ci) := by
  obtain ⟨-, -, ⟨st, rs, hf, hc, -⟩ | ⟨-, -, rfl⟩⟩ := exec_next_cases h
  · exact .inl ⟨hf, hc⟩
  · exact .inr ⟨fault_eq_none_of_exec h, rfl, rfl⟩

/-- Settles O11, by the kinds of action a step can serve. -/
theorem commandIndexCountsCompletedCommands : Obligations.CommandIndexCountsCompletedCommands := by
  refine ⟨rfl, fun s t h => ?_⟩
  obtain ⟨hh, rfl⟩ | ⟨bytes, rest, hh, rfl⟩ | ⟨n, rest, hh, rfl⟩ | ⟨rest, hh, rfl⟩ | ⟨c, rest, i, hh, -, he⟩ |
    ⟨c, rest, cause, hh, -, hf, rfl⟩ := step_next_cases h <;> rw [hh]
  · rfl
  · rfl
  · rfl
  · rfl
  · exact exec_ci (s := { s with host := rest }) he
  · exact .inl ⟨hf, rfl⟩

/-- R31: a command that changes `FAULT` is a DESERIALIZE that underruns. -/
theorem exec_changes_fault {i : Instr} {s t : State} (h : exec i s = .next t) (hne : t.fault ≠ s.fault) :
    i = .deserialize ∧ s.fault = none ∧ t.fault = some .cursorUnderrun ∧ s.inq.length < wireSize s := by
  have hs := fault_eq_none_of_exec h
  obtain ⟨-, -, ⟨st, rs, hf, -⟩ | ⟨hi, hlt, rfl⟩⟩ := exec_next_cases h
  · exact absurd (hf.trans hs.symm) hne
  · exact ⟨hi, hs, rfl, hlt⟩

theorem exec_of_fault (i : Instr) {s : State} {f : Fault} (h : s.fault = some f) : exec i s = .fault f := by
  obtain ⟨effect, he⟩ := exec_eq_takeCommand i
  rw [he, takeCommand_of_some effect h]

/-- Settles O15, by the kinds of action a step can serve: only a reset and a command change `FAULT`. -/
theorem faultChangesOnlyByUnderrunOrReset : Obligations.FaultChangesOnlyByUnderrunOrReset := by
  refine ⟨fun s t h hne => ?_, fun i s f => exec_of_fault i⟩
  obtain ⟨-, rfl⟩ | ⟨bytes, rest, -, rfl⟩ | ⟨n, rest, -, rfl⟩ | ⟨rest, hh, rfl⟩ | ⟨c, rest, i, hh, hd, he⟩ |
    ⟨c, rest, cause, -, -, -, rfl⟩ := step_next_cases h
  · exact absurd rfl hne
  · exact absurd rfl hne
  · exact absurd rfl hne
  · exact .inl ⟨by rw [hh, List.head?_cons], rfl⟩
  · obtain ⟨rfl, hs, ht, hlt⟩ := exec_changes_fault he hne
    exact .inr ⟨hs, ht, hlt, c, rest, hh, hd⟩
  · exact absurd rfl hne

/-! ### `NHOP` -/

theorem getElem?_eq_leValue_byte {bs : List Byte} {k : Nat} (hk : k < bs.length) :
    bs[k]? = some (BitVec.ofNat 8 (leValue bs / 256 ^ k)) := by
  have h := leBytes_getElem? bs.length (leValue bs) k
  rwa [leBytes_leValue, if_pos hk] at h

/-- R57: `n` bytes of a queue are the bytes of their value. -/
theorem hasByte_leValue {w : List Byte} {offset n k : Nat} (hw : offset + n ≤ w.length) (hk : k < n) :
    HasByte w offset (leValue ((w.drop offset).take n)) k := by
  rw [HasByte, ← List.getElem?_drop, ← List.getElem?_take_of_lt hk]
  apply getElem?_eq_leValue_byte
  rw [List.length_take, List.length_drop]
  omega

/-- R205: in a mode with a ring, `NHOP` is the value of bytes 40 and 41 of `INQ`. -/
theorem readRing_nhop_toNat (s : State) : (readRing s).nhop.toNat = leValue ((s.inq.drop 40).take 2) := by
  have hlt : leValue ((s.inq.drop 40).take 2) < 2 ^ 16 :=
    calc leValue ((s.inq.drop 40).take 2) < 256 ^ ((s.inq.drop 40).take 2).length := leValue_lt _
      _ ≤ 256 ^ 2 := Nat.pow_le_pow_right (by decide) (List.length_take_le _ _)
  simp only [readRing, readSlotFrom, inRead, List.drop_drop, BitVec.toNat_ofNat]
  exact Nat.mod_eq_of_lt hlt

theorem wireSize_ring {s : State} (h : s.mode = .normal ∨ s.mode = .portTrace) : wireSize s = 42 := by
  rcases h with h | h <;> simp [wireSize, h, maxHop]

/-- R205: a DESERIALIZE that changes `NHOP` loads it from bytes 40 and 41 of `INQ`, in a mode with a ring. -/
theorem exec_deserialize_changes_nhop {s t : State} (h : exec .deserialize s = .next t) (hne : t.nhop ≠ s.nhop) :
    (s.mode = .normal ∨ s.mode = .portTrace) ∧ HasByte s.inq 40 t.nhop.toNat 0 ∧ HasByte s.inq 40 t.nhop.toNat 1 := by
  have hf := fault_eq_none_of_exec h
  obtain hlt | hge := Nat.lt_or_ge s.inq.length (wireSize s)
  · rw [exec_deserialize_lt hf hlt] at h
    cases h
    exact absurd rfl hne
  · rw [exec_deserialize_ge hf hge] at h
    cases h
    have hm := (readHeader_storage s).resolve_right fun hk => hne hk.1
    rw [wireSize_ring hm] at hge
    rw [answered_nhop, readHeader_ring hm, readRing_nhop_toNat]
    exact ⟨hm, hasByte_leValue hge (by decide), hasByte_leValue hge (by decide)⟩

/-- R29: the three commands that write `NHOP`, and what each writes. -/
theorem exec_changes_nhop {i : Instr} {s t : State} (h : exec i s = .next t) (hne : t.nhop ≠ s.nhop) :
    ((∃ a b c d e, i = .pushHop a b c d e) ∧ t.nhop.toNat = (s.nhop.toNat + 1) % 2 ^ 16) ∨
      (i = .deserialize ∧ (s.mode = .normal ∨ s.mode = .portTrace) ∧ HasByte s.inq 40 t.nhop.toNat 0 ∧
        HasByte s.inq 40 t.nhop.toNat 1) ∨ (i = .hdrClear ∧ t.nhop = 0) := by
  obtain ⟨st, rs, rfl, -⟩ | ⟨a, m, rfl, rfl⟩ | ⟨a, w, rfl, rfl⟩ | ⟨a, m, rfl, rfl⟩ | ⟨rfl, rfl⟩ |
    ⟨a, b, c, d, e, x, rfl, -, rfl⟩ | ⟨a, rfl, -, rfl⟩ | ⟨a, rfl, -, rfl⟩ | ⟨rfl, q, n, rfl⟩ | ⟨rfl, -⟩ :=
    exec_effects h
  · exact absurd rfl hne
  · exact absurd rfl hne
  · exact absurd rfl hne
  · exact absurd rfl hne
  · exact .inr (.inr ⟨rfl, rfl⟩)
  · exact .inl ⟨⟨a, b, c, d, e, rfl⟩, BitVec.toNat_add s.nhop 1⟩
  · exact absurd rfl hne
  · exact absurd rfl hne
  · exact absurd rfl hne
  · exact .inr (.inl ⟨rfl, exec_deserialize_changes_nhop h hne⟩)

/-- Settles O48: the commands by `exec_changes_nhop`, and the kinds of action a step can serve. -/
theorem nhopIsWrittenInFourWaysOnly : Obligations.NhopIsWrittenInFourWaysOnly := by
  refine ⟨fun i s t => exec_changes_nhop, fun s t h hne => ?_⟩
  obtain ⟨-, rfl⟩ | ⟨bytes, rest, -, rfl⟩ | ⟨n, rest, -, rfl⟩ | ⟨rest, hh, rfl⟩ | ⟨c, rest, i, hh, hd, -⟩ |
    ⟨c, rest, cause, -, -, -, rfl⟩ := step_next_cases h
  · exact absurd rfl hne
  · exact absurd rfl hne
  · exact absurd rfl hne
  · exact .inl ⟨by rw [hh, List.head?_cons], rfl⟩
  · exact .inr ⟨c, i, by rw [hh, List.head?_cons], hd⟩
  · exact absurd rfl hne

end Sys2Proof.Machine
end

section
/-! PROOFS. The ring under a sequence of pushes (R172, R179, R30): what one command of a `PushRun` does to the storage, and
which slot holds which of the last five records. -/

namespace Sys2Proof.Machine

/-- R172: a push that succeeds writes its record and completes. -/
theorem exec_of_pushes {s : State} {i : Instr} {x : Word} (hp : Pushes s i x) (hf : s.fault = none) :
    exec i s = .next (answered (pushSlot s x) .ok []) := by
  obtain ⟨time, bytes, qlen, rate, port, rfl, ⟨hm, rfl⟩ | ⟨hm, hx⟩⟩ := hp
  · exact exec_pushHop_portTrace hf hm
  · exact exec_pushHop_normal_some hf hm (encodeNormal?_eq_some.2 hx)

/-- R172: a PUSH_HOP that pushes nothing only answers. -/
theorem exec_pushHop_of_not_pushes {s t : State} {a b c d e : Word} (hn : ∀ x, ¬ Pushes s (.pushHop a b c d e) x)
    (h : exec (.pushHop a b c d e) s = .next t) : ∃ st, t = answered s st [] := by
  have hf := fault_eq_none_of_exec h
  by_cases hp : s.mode = .portTrace
  · exact absurd ⟨a, b, c, d, e, rfl, .inl ⟨hp, rfl⟩⟩ (hn e)
  by_cases hm : s.mode = .normal
  · cases hx : encodeNormal? s a b c d with
    | some x => exact absurd ⟨a, b, c, d, e, rfl, .inr ⟨hm, encodeNormal?_eq_some.1 hx⟩⟩ (hn x)
    | none =>
      rw [exec_pushHop_normal_none hf hm hx] at h
      cases h
      exact ⟨_, rfl⟩
  · rw [exec_pushHop_other hf hm hp] at h
    cases h
    exact ⟨_, rfl⟩

/-- A command of a push run that is no successful push leaves the storage as it is. -/
theorem exec_keeps_storage {s t : State} {i : Instr} (hn : ∀ x, ¬ Pushes s i x) (hc : i ≠ .hdrClear)
    (hd : i ≠ .deserialize) (ht : ∀ v, i ≠ .setTs v) (hp : ∀ v, i ≠ .setPower v) (h : exec i s = .next t) :
    t.slots = s.slots ∧ t.nhop = s.nhop := by
  obtain ⟨st, rs, rfl, -⟩ | ⟨a, m, rfl, rfl⟩ | ⟨a, w, rfl, rfl⟩ | ⟨a, m, rfl, rfl⟩ | ⟨rfl, -⟩ |
    ⟨a, b, c, d, e, x, rfl, -, -⟩ | ⟨a, rfl, -, -⟩ | ⟨a, rfl, -, -⟩ | ⟨rfl, q, n, rfl⟩ | ⟨rfl, -⟩ := exec_effects h
  · exact ⟨rfl, rfl⟩
  · exact ⟨rfl, rfl⟩
  · exact ⟨rfl, rfl⟩
  · exact ⟨rfl, rfl⟩
  · exact absurd rfl hc
  · obtain ⟨st, rfl⟩ := exec_pushHop_of_not_pushes hn h
    exact ⟨rfl, rfl⟩
  · exact absurd rfl (ht a)
  · exact absurd rfl (hp a)
  · exact ⟨rfl, rfl⟩
  · exact absurd rfl hd

/-- R179: from a fresh header, `NHOP` is the number of pushes modulo 2^16. -/
theorem PushRun.nhop_toNat {s t : State} {xs : List Word} (hs : FreshHeader s) (h : PushRun s xs t) :
    t.nhop.toNat = xs.length % 2 ^ 16 := by
  induction h with
  | start => rw [hs.2]; rfl
  | push _ hp he ih =>
    rw [exec_of_pushes hp (fault_eq_none_of_exec he)] at he
    cases he
    rw [answered_nhop, pushSlot_nhop, BitVec.toNat_add, ih, List.length_append, List.length_singleton]
    exact Nat.mod_add_mod _ _ _
  | other _ hn hc hd ht hp he ih =>
    rw [(exec_keeps_storage hn hc hd ht hp he).2, ih]

/-- R179: before `NHOP` has wrapped, push `m` stands in slot `m mod 5` while it is one of the last five. -/
theorem PushRun.slot_of_recent {s t : State} {xs : List Word} (hs : FreshHeader s) (h : PushRun s xs t)
    (hlen : xs.length ≤ 2 ^ 16) {m : Nat} (hm : m < xs.length) (hrecent : xs.length ≤ m + 5) {j : Fin 5}
    (hj : j.val = m % 5) : xs[m]? = some t.slots[j] := by
  induction h with
  | start => cases hm
  | @push xs t i x u h hp he ih =>
    rw [exec_of_pushes hp (fault_eq_none_of_exec he)] at he
    cases he
    rw [List.length_append, List.length_singleton] at hlen hm hrecent
    rw [answered_slots, pushSlot_getElem, h.nhop_toNat hs, Nat.mod_eq_of_lt hlen]
    obtain hm' | rfl := Nat.lt_succ_iff_lt_or_eq.1 hm
    · rw [if_neg (by omega), List.getElem?_append_left hm', ih (by omega) hm' (by omega)]
    · rw [if_pos hj, List.getElem?_concat_length]
  | other _ hn hc hd ht hp he ih =>
    rw [(exec_keeps_storage hn hc hd ht hp he).1]
    exact ih hlen hm hrecent

/-- Settles O38: the oldest of the last five pushes is push `k - 5`, and `k - 5` and `NHOP` agree modulo 5. -/
theorem oldestRecordIsAtNhopModFive : Obligations.OldestRecordIsAtNhopModFive := by
  intro s t xs j hs h hge hlt hj
  rw [h.nhop_toNat hs, Nat.mod_eq_of_lt hlt] at hj
  exact h.slot_of_recent hs (by omega) (by omega) (by omega) (by omega)

end Sys2Proof.Machine
end

section
/-! PROOFS. The host's actions (R61, R63, R65, R252): what a step does with each of them, and that it takes exactly one. -/

namespace Sys2Proof.Machine

/-- Settles O10, by the kinds of action a step can serve. -/
theorem stepTakesOneActionAndKeepsTheLayout : Obligations.StepTakesOneActionAndKeepsTheLayout := by
  intro s t h
  obtain ⟨hh, rfl⟩ | ⟨bytes, rest, hh, rfl⟩ | ⟨n, rest, hh, rfl⟩ | ⟨rest, hh, rfl⟩ | ⟨c, rest, i, hh, -, he⟩ |
    ⟨c, rest, cause, hh, -, -, rfl⟩ := step_next_cases h <;> rw [hh]
  · exact ⟨rfl, rfl⟩
  · exact ⟨rfl, rfl⟩
  · exact ⟨rfl, rfl⟩
  · exact ⟨rfl, rfl⟩
  · obtain ⟨hhost, hparams, -⟩ := exec_next_cases he
    exact ⟨hhost, hparams⟩
  · exact ⟨rfl, rfl⟩

section
variable {s : State} {rest : List HostAction}

theorem step_of_nil (hh : s.host = []) : step s = .next s := by
  rw [step, nextAction?_nil hh]
  rfl

theorem step_of_fill {bytes : List Byte} (hh : s.host = .fill bytes :: rest) :
    step s = .next { s with host := rest, inq := s.inq ++ bytes } := by
  rw [step, nextAction?_cons hh]
  rfl

theorem step_of_drain {n : Nat} (hh : s.host = .drain n :: rest) :
    step s = .next { s with host := rest, outq := s.outq.drop n } := by
  rw [step, nextAction?_cons hh]
  rfl

theorem step_of_reset (hh : s.host = .reset :: rest) : step s = .next (resetBy { s with host := rest }) := by
  rw [step, nextAction?_cons hh]
  rfl

theorem step_of_issue {c : Command} {i : Instr} (hh : s.host = .issue c :: rest) (hd : decode c = .ok i) :
    step s = exec i { s with host := rest } := by
  rw [step, nextAction?_cons hh]
  simp only [hd]

end

/-- Settles O7, by `step_of_issue`. -/
theorem stepRunsTheDecodedCommand : Obligations.StepRunsTheDecodedCommand :=
  fun _ _ _ _ => step_of_issue

/-- Settles O8, one kind of action at a time. -/
theorem stepServesTheHostsOtherActions : Obligations.StepServesTheHostsOtherActions :=
  ⟨fun _ _ _ => step_of_fill, fun _ _ _ => step_of_drain, fun _ _ => step_of_reset, fun _ => step_of_nil⟩

end Sys2Proof.Machine
end

section
/-! PROOFS. Who writes the storage and the streams, and what: the accessors of slot 0 (R52, R53, R175 to R178), the writers
of each slot and stream, and the commands that only answer (R60). -/

namespace Sys2Proof.Machine

/-! ### The accessors of slot 0 -/

/-- R52, R53: a write to slot 0 keeps every other slot. -/
theorem slots_set_zero_of_ne (v : Vector Word 5) (x : Word) {j : Fin 5} (hj : j ≠ 0) : (v.set 0 x)[j] = v[j] := by
  rw [slots_set_getElem]
  exact if_neg (Fin.val_ne_of_ne hj)

/-- Settles O36, by the mode; the bits are `powerBits_toNat` and `withPowerBits_toNat`. -/
theorem powerAccessorsUseTheLowBytesOfSlotZero : Obligations.PowerAccessorsUseTheLowBytesOfSlotZero := by
  refine ⟨spelledBy_of_decodeOpcode (o := 0x27) (by decide) rfl,
    fun _ => spelledBy_of_decodeOpcode (o := 0x28) (by decide) rfl, ?_⟩
  rintro s a n hf rfl
  rw [exec_getPower hf, exec_setPower hf]
  refine ⟨fun hm => ?_, fun hm => ?_⟩
  · rw [if_pos hm, if_pos hm]
    refine ⟨⟨powerValue s, rfl, powerBits_toNat _ _⟩,
      ⟨s.slots.set 0 (withPowerBits s.pwidth s.slots[0] a), ?_, fun j => slots_set_zero_of_ne _ _, rfl⟩⟩
    rw [Vector.getElem_set_self, withPowerBits_toNat]
  · rw [if_neg hm, if_neg hm]
    exact ⟨rfl, rfl⟩

/-- Settles O35, by the mode. -/
theorem timestampAccessorsAreModeGated : Obligations.TimestampAccessorsAreModeGated := by
  refine ⟨spelledBy_of_decodeOpcode (o := 0x25) (by decide) rfl,
    fun _ => spelledBy_of_decodeOpcode (o := 0x26) (by decide) rfl, fun s a hf => ?_⟩
  rw [exec_getTs hf, exec_setTs hf]
  refine ⟨fun hm => ?_, fun hm => ?_⟩
  · rw [if_pos hm, if_pos hm]
    exact ⟨rfl, s.slots.set 0 a, Vector.getElem_set_self _, fun j => slots_set_zero_of_ne _ _, rfl⟩
  · rw [if_neg hm, if_neg hm]
    exact ⟨rfl, rfl⟩

/-! ### The writers of each slot and stream -/

/-- R52, R53, R170, R172, R176, R178, R205: a command that changes slot `j` is one of its writers. -/
theorem exec_changes_slot {i : Instr} {s t : State} (h : exec i s = .next t) {j : Fin 5}
    (hne : t.slots[j] ≠ s.slots[j]) :
    ((∃ a b c d e, i = .pushHop a b c d e) ∧ (s.mode = .normal ∨ s.mode = .portTrace) ∧ j.val = s.nhop.toNat % 5) ∨
      i = .hdrClear ∨ (i = .deserialize ∧ (s.mode = .normal ∨ s.mode = .portTrace)) ∨
      (j = 0 ∧ s.mode = .timestamp ∧ (i = .deserialize ∨ ∃ a, i = .setTs a)) ∨
      (j = 0 ∧ s.mode = .compressedPower ∧ (i = .deserialize ∨ ∃ a, i = .setPower a)) := by
  have slot_zero (x : Word) : (s.slots.set 0 x)[j] ≠ s.slots[j] → j = 0 :=
    not_imp_comm.1 (slots_set_zero_of_ne s.slots x)
  obtain ⟨st, rs, rfl, -⟩ | ⟨a, m, rfl, rfl⟩ | ⟨a, w, rfl, rfl⟩ | ⟨a, m, rfl, rfl⟩ | ⟨rfl, -⟩ |
    ⟨a, b, c, d, e, x, rfl, hm, rfl⟩ | ⟨a, rfl, hm, rfl⟩ | ⟨a, rfl, hm, rfl⟩ | ⟨rfl, q, n, rfl⟩ |
    ⟨rfl, rfl | ⟨v, k, q, n, rfl, hm | ⟨-, hv⟩⟩⟩ := exec_effects h
  · exact absurd rfl hne
  · exact absurd rfl hne
  · exact absurd rfl hne
  · exact absurd rfl hne
  · exact .inr (.inl rfl)
  · rw [answered_slots, pushSlot_getElem] at hne
    exact .inl ⟨⟨a, b, c, d, e, rfl⟩, hm, not_imp_comm.1 (if_neg ·) hne⟩
  · exact .inr (.inr (.inr (.inl ⟨slot_zero _ hne, hm, .inr ⟨a, rfl⟩⟩)))
  · exact .inr (.inr (.inr (.inr ⟨slot_zero _ hne, hm, .inr ⟨a, rfl⟩⟩)))
  · exact absurd rfl hne
  · exact absurd rfl hne
  · exact .inr (.inr (.inl ⟨rfl, hm⟩))
  · obtain ⟨hj, hm | hm⟩ := hv j hne
    · exact .inr (.inr (.inr (.inl ⟨hj, hm, .inl rfl⟩)))
    · exact .inr (.inr (.inr (.inr ⟨hj, hm, .inl rfl⟩)))

/-- R204, R205: each stream keeps its content under every command but its own. -/
theorem exec_streams {i : Instr} {s t : State} (h : exec i s = .next t) :
    (t.outq = s.outq ∨ i = .serialize) ∧ (t.inq = s.inq ∨ i = .deserialize) := by
  obtain ⟨st, rs, rfl, -⟩ | ⟨a, m, rfl, rfl⟩ | ⟨a, w, rfl, rfl⟩ | ⟨a, m, rfl, rfl⟩ | ⟨rfl, rfl⟩ |
    ⟨a, b, c, d, e, x, rfl, -, rfl⟩ | ⟨a, rfl, -, rfl⟩ | ⟨a, rfl, -, rfl⟩ | ⟨rfl, q, n, rfl⟩ |
    ⟨rfl, rfl | ⟨v, k, q, n, rfl, -⟩⟩ := exec_effects h
  all_goals simp

/-- Settles O49, by `exec_changes_slot` and `exec_streams`. -/
theorem slotsAndStreamsAreWrittenOnlyByTheirCommands :
    Obligations.SlotsAndStreamsAreWrittenOnlyByTheirCommands := by
  intro i s t h
  obtain ⟨hout, hin⟩ := exec_streams h
  exact ⟨fun j => exec_changes_slot h, hout.resolve_left, hin.resolve_left⟩

/-! ### Reading -/

/-- R60: a reading command leaves everything but `CI` and the responses. -/
theorem exec_of_onlyAnswers {i : Instr} {s t : State} (hi : onlyAnswers i = true) (h : exec i s = .next t) :
    ∃ st rs, t = answered s st rs := by
  obtain ⟨st, rs, ht, -⟩ | ⟨a, m, rfl, -⟩ | ⟨a, w, rfl, -⟩ | ⟨a, m, rfl, -⟩ | ⟨rfl, -⟩ |
    ⟨a, b, c, d, e, x, rfl, -⟩ | ⟨a, rfl, -⟩ | ⟨a, rfl, -⟩ | ⟨rfl, -⟩ | ⟨rfl, -⟩ := exec_effects h
  · exact ⟨st, rs, ht⟩
  all_goals cases hi

/-- R204: the bytes SERIALIZE appends do not depend on what `OUTQ` holds. -/
theorem writeHeader_eq_append (s : State) (q : List Byte) : writeHeader s q = q ++ writeHeader s [] := by
  rw [writeHeader_eq, writeHeader_eq s [], List.nil_append]

theorem exec_serialize_next {s t : State} (h : exec .serialize s = .next t) :
    t = answered { s with outq := s.outq ++ writeHeader s [] } .ok [BitVec.ofNat 64 (wireSize s)] := by
  rw [exec_serialize (fault_eq_none_of_exec h), writeHeader_eq_append] at h
  exact (Host.Outcome.next.inj h).symm

/-- R205: DESERIALIZE removes as many bytes from `INQ` as the header has on the wire. -/
theorem readHeader_inq (s : State) : (readHeader s).inq = s.inq.drop (wireSize s) := by
  cases hm : s.mode with
  | disabled => simp [readHeader_disabled hm, wireSize, hm]
  | normal | portTrace =>
    rw [readHeader_ring (by simp [hm]), wireSize_ring (by simp [hm])]
    simp only [readRing, readSlotFrom, inRead, List.drop_drop]
  | timestamp => simp [readHeader_timestamp hm, wireSize, hm, inRead]
  | compressedPower => simp [readHeader_compressedPower hm, wireSize, hm, inRead]

theorem exec_deserialize_inq {s t : State} (h : exec .deserialize s = .next t) (ht : t.fault = none) :
    t.inq = s.inq.drop (wireSize s) := by
  have hf := fault_eq_none_of_exec h
  obtain hlt | hge := Nat.lt_or_ge s.inq.length (wireSize s)
  · rw [exec_deserialize_lt hf hlt] at h
    cases h
    cases ht
  · rw [exec_deserialize_ge hf hge] at h
    cases h
    exact readHeader_inq s

/-- Settles O44. A SERIALIZE writes none of the fields that its bytes and their number are read from, so the second one
appends the same bytes as the first. -/
theorem readingCommandsOnlyAnswer : Obligations.ReadingCommandsOnlyAnswer := by
  refine ⟨fun i s t => exec_of_onlyAnswers, fun s t u ht hu => ?_, fun s t => exec_deserialize_inq⟩
  obtain rfl := exec_serialize_next ht
  exact ⟨writeHeader s [], _, rfl, exec_serialize_next hu⟩

end Sys2Proof.Machine
end

section
/-! PROOFS. The encoding (R81 to R92): encoder and decoder are inverse, the decoder accepts exactly the legal transactions,
an illegal one is only answered, and what a response carries (R86); then the record's bits (R92, R93) and the
pseudo-commands (R91). -/

namespace Sys2Proof

/-! ### Encoder and decoder -/

/-- R81, R89: READ_SLOT alone uses the `SLOT` field. -/
theorem slotFieldOf_eq_zero_or (i : Instr) : slotFieldOf i = 0 ∨ opcodeOf i = 0x24 := by
  cases i with
  | readSlot k => exact .inr rfl
  | _ => exact .inl rfl

/-- R87: the opcode map takes each command's own opcode, `SLOT` field and operand words to that command. -/
theorem decodeOpcode_opcodeOf (i : Instr) : decodeOpcode (opcodeOf i) (slotFieldOf i) (operandsOf i) = .ok i := by
  cases i <;> rfl

theorem decode_encode (i : Instr) : decode (encode i) = .ok i := by
  rw [encode, decode_commandWord, if_pos (slotFieldOf_eq_zero_or i), decodeOpcode_opcodeOf]

/-- Settles O1, by `decode_encode`. -/
theorem decodeInvertsEncode : Obligations.DecodeInvertsEncode := decode_encode

/-- R87, R89: what the opcode map accepts is the accepted command's own opcode, operand words and `SLOT` field, where only
READ_SLOT keeps the given field. -/
theorem fields_of_decodeOpcode {o : BitVec 8} {k : BitVec 3} {ops : List Word} {i : Instr}
    (h : decodeOpcode o k ops = .ok i) :
    opcodeOf i = o ∧ operandsOf i = ops ∧ slotFieldOf i = if opcodeOf i = 0x24 then k else 0 := by
  unfold decodeOpcode at h
  split at h
  case h_28 => cases h
  all_goals
    rename_i ho
    simp only [takeF0, takeF1, takeF2, takeF4, takeF5] at h
    split at h <;> cases h
    exact ⟨BitVec.eq_of_toNat_eq ho.symm, rfl, rfl⟩

theorem encode_of_decode {c : Command} {i : Instr} (h : decode c = .ok i) : encode i = c := by
  obtain ⟨hr, hs, hd⟩ := decode_ok_fields h
  obtain ⟨ho, hops, hk⟩ := fields_of_decodeOpcode hd
  have hslot : slotFieldOf i = c.slot := by
    rw [hk, ho]
    split
    · rfl
    · exact (hs.resolve_right ‹_›).symm
  rw [encode, hslot, ho, hops, commandWord_of_rsvd c hr]

/-- Settles O2, by `encode_of_decode`. -/
theorem encodeInvertsDecode : Obligations.EncodeInvertsDecode := fun _ _ => encode_of_decode

/-- Settles O5: each transaction is the encoder's own spelling of its command. -/
theorem specWordsDecode : Obligations.SpecWordsDecode :=
  ⟨decode_encode .getMode, decode_encode (.setMode 1), decode_encode (.readSlot 3),
    decode_encode (.pushHop 100 1280 800 100000000000 0), decode_encode (.encNormal 0 256 0 100000000000),
    decode_encode .deserialize⟩

/-! ### Legality -/

/-- R85: the decoder accepts a transaction exactly when its fields and its operand count are in order. -/
theorem decode_ok_iff (c : Command) :
    (∃ i, decode c = .ok i) ↔
      operandCount? c.opc.toNat = some c.operands.length ∧ c.rsvd = 0 ∧ (c.slot = 0 ∨ c.opc = 0x24) := by
  constructor
  · rintro ⟨i, h⟩
    obtain ⟨hr, hs, hd⟩ := decode_ok_fields h
    exact ⟨(decodeOpcode_ok_iff _ _ _).1 ⟨i, hd⟩, hr, hs⟩
  · rintro ⟨hn, hr, hs⟩
    rw [decode_eq_decodeOpcode c hr hs]
    exact (decodeOpcode_ok_iff _ _ _).2 hn

/-- R85: the legality check, condition by condition. -/
theorem Command.legal_iff (c : Command) :
    c.legal = true ↔
      operandCount? (c.word.toNat % 2 ^ 8) = some c.operands.length ∧ c.word.toNat / 2 ^ 11 = 0 ∧
        (c.word.toNat / 2 ^ 8 % 2 ^ 3 = 0 ∨ c.word.toNat % 2 ^ 8 = 0x24) := by
  simp only [legal, opcodeListed, reservedZero, slotAllowed, countMatches, opcodeNumber, Bool.and_eq_true,
    Bool.or_eq_true, beq_iff_eq]
  constructor
  · rintro ⟨⟨⟨-, hr⟩, hs⟩, hn⟩
    exact ⟨hn, hr, hs.symm⟩
  · rintro ⟨hn, hr, hs⟩
    exact ⟨⟨⟨by rw [hn, Option.isSome_some], hr⟩, hs.symm⟩, hn⟩

/-- R85: the decoder, which slices the command word, accepts what the legality check, which divides it, calls legal. -/
theorem decode_ok_iff_legal (c : Command) : (∃ i, decode c = .ok i) ↔ c.legal = true := by
  rw [decode_ok_iff, c.legal_iff, c.opc_toNat, c.rsvd_eq_zero, c.slot_eq_zero, c.opc_eq_readSlot]

/-- Settles O3, by `decode_ok_iff_legal` and `Command.legal_iff`. -/
theorem decodeAcceptsExactlyLegalCommands : Obligations.DecodeAcceptsExactlyLegalCommands := by
  intro c
  rw [decode_ok_iff_legal, c.legal_iff]
  constructor
  · rintro ⟨hn, hr, hs⟩
    exact ⟨_, hn, hr, hs, rfl⟩
  · rintro ⟨_, hn, hr, hs, rfl⟩
    exact ⟨hn, hr, hs⟩

/-- R88: the opcode values the map does not list. -/
theorem operandCount?_eq_none {o : Nat}
    (h : o = 0 ∨ 0x08 ≤ o ∧ o ≤ 0x0F ∨ 0x19 ≤ o ∧ o ≤ 0x1F ∨ 0x29 ≤ o ∧ o ≤ 0x2F ∨ 0x32 ≤ o) :
    operandCount? o = none := by
  simp only [operandCount?, List.mem_cons, List.not_mem_nil, or_false]
  rw [if_neg (by omega), if_neg (by omega), if_neg (by omega), if_neg (by omega), if_neg (by omega)]

namespace Machine

/-- R85, R221: the issue of an illegal transaction is a command that is answered `ERR_ILLEGAL`, if it is taken. -/
theorem step_of_illegal {s : State} {c : Command} {rest : List HostAction} (hh : s.host = .issue c :: rest)
    (hc : c.legal = false) : step s = takeCommand { s with host := rest } answerIllegal := by
  rw [step, nextAction?_cons hh]
  cases hd : decode c with
  | ok i => simp [(decode_ok_iff_legal c).1 ⟨i, hd⟩] at hc
  | error cause => simp only [hd, rejectIllegal]

/-- Settles O4: each of the clauses contradicts one of the conditions of `Command.legal_iff`. -/
theorem unlistedOpcodesAreIllegal : Obligations.UnlistedOpcodesAreIllegal := by
  rintro s c rest o hf hh rfl h
  have hc : c.legal = false := by
    rw [← Bool.not_eq_true, c.legal_iff]
    rintro ⟨hn, hr, hs⟩
    rw [operandCount?_eq_none (by omega)] at hn
    cases hn
  exact (step_of_illegal hh hc).trans (takeCommand_of_none (s := { s with host := rest }) _ hf)

/-! ### Responses -/

/-- R220, R221: no command that was decoded answers `ERR_ILLEGAL`. -/
theorem exec_status_ne_errIllegal {i : Instr} {s t : State} {r : Response} (h : exec i s = .next t)
    (hr : t.responses = s.responses ++ [r]) : r.status ≠ .errIllegal := by
  obtain ⟨st, rs, rfl, hst⟩ | ⟨a, m, rfl, rfl⟩ | ⟨a, w, rfl, rfl⟩ | ⟨a, m, rfl, rfl⟩ | ⟨rfl, rfl⟩ |
    ⟨a, b, c, d, e, x, rfl, -, rfl⟩ | ⟨a, rfl, -, rfl⟩ | ⟨a, rfl, -, rfl⟩ | ⟨rfl, q, n, rfl⟩ |
    ⟨rfl, rfl | ⟨v, k, q, n, rfl, -⟩⟩ := exec_effects h
  all_goals simp at hr
  · subst hr
    rintro rfl
    simp [RaisedBy] at hst
  all_goals simp [← hr]

/-- Settles O45: the shape by `exec_next_cases`, an illegal transaction by `step_of_illegal`. -/
theorem responseCarriesTheOpcodesResultCount : Obligations.ResponseCarriesTheOpcodesResultCount := by
  refine ⟨fun i s t h => ?_, fun s t c rest hh hc h => ?_⟩
  · obtain ⟨-, -, ⟨st, rs, hf, -, hr, -, hlen, hz⟩ | ⟨-, -, rfl⟩⟩ := exec_next_cases h
    · exact ⟨fun _ => ⟨_, hr, hlen, exec_status_ne_errIllegal h hr, hz⟩, fun hne => absurd hf hne⟩
    · exact ⟨nofun, fun _ => rfl⟩
  · rw [step_of_illegal hh hc] at h
    obtain ⟨-, rfl⟩ := takeCommand_eq_next.1 h
    rfl

/-! ### Records and pseudo-commands -/

/-- Settles O22, one layout at a time. -/
theorem packPlacesFieldsAtTheSpecsBits : Obligations.PackPlacesFieldsAtTheSpecsBits :=
  fun t b q r => ⟨pack_docOrder_toNat t b q r, pack_rateLow_toNat t b q r⟩

/-- Settles O23. The field that ends at bit 63 needs no remainder, because a record has 64 bits. -/
theorem fieldExtractionInvertsPack : Obligations.FieldExtractionInvertsPack := by
  refine ⟨fun x => ?_, fields_pack, pack_fields⟩
  have hx := x.isLt
  obtain ⟨hdt, hdb, hdq, hdr⟩ := fields_docOrder_toNat x
  obtain ⟨hrt, hrb, hrq, hrr⟩ := fields_rateLow_toNat x
  exact ⟨⟨hdt, hdb, hdq, by omega⟩, hrt, hrb, by omega, hrr⟩

/-- R91, R140: rate 0 has no code, so no record can be made with it. -/
theorem encodeNormal?_rate_zero (s : State) (time bytes qlen : Word) : encodeNormal? s time bytes qlen 0 = none := rfl

/-- Settles O6: the expansions are the pseudo-commands' definitions, and PUSH_PORT pushes rate 0. -/
theorem pseudoCommandsExpandToPushHop : Obligations.PseudoCommandsExpandToPushHop :=
  ⟨fun _ _ _ _ => rfl, fun _ => rfl,
    fun s _ hf hm => exec_pushHop_normal_none hf hm (encodeNormal?_rate_zero s 0 0 0)⟩

end Machine

end Sys2Proof
end

section
/-! PROOFS. The configuration commands (R120 to R127): what the reads answer, which operands the setters take, and that
none of them writes more than the configuration registers. -/

namespace Sys2Proof.Machine

/-! ### The setters' operands -/

/-- Settles O17: an operand that names no mode is above 4. -/
theorem setModeWritesOnlyLegalModes : Obligations.SetModeWritesOnlyLegalModes := by
  refine ⟨by decide, fun _ => spelledBy_of_decodeOpcode (o := 0x02) (by decide) rfl, fun s a hf =>
    ⟨fun hle => ?_, fun hgt => exec_setMode_none hf (modeOfOperand?_eq_none.2 hgt)⟩⟩
  cases hm : modeOfOperand? a with
  | none => exact absurd (modeOfOperand?_eq_none.1 hm) (Nat.not_lt.2 hle)
  | some m => exact ⟨m, (modeOfOperand?_eq_some.1 hm).symm, exec_setMode_some hf hm⟩

/-- Settles O18: an operand that names no power width is neither 1 nor 2. -/
theorem setPwidthWritesOnlyOneOrTwo : Obligations.SetPwidthWritesOnlyOneOrTwo := by
  refine ⟨by decide, fun _ => spelledBy_of_decodeOpcode (o := 0x04) (by decide) rfl, fun s a hf =>
    ⟨fun hlegal => ?_, fun hne => exec_setPwidth_none hf (pwidthOfOperand?_eq_none.2 hne)⟩⟩
  cases hw : pwidthOfOperand? a with
  | none => exact absurd hlegal (not_or.2 (pwidthOfOperand?_eq_none.1 hw))
  | some w => exact ⟨w, (pwidthOfOperand?_eq_some.1 hw).symm, exec_setPwidth_some hf hw⟩

/-- Settles O19: an operand that names no multiplier is 0 or too wide. -/
theorem setMultiRefusesZeroAndWideOperands : Obligations.SetMultiRefusesZeroAndWideOperands := by
  refine ⟨fun _ => spelledBy_of_decodeOpcode (o := 0x06) (by decide) rfl, fun s a hf =>
    ⟨fun ⟨hpos, hlt⟩ => ?_, fun hbad => exec_setMulti_none hf (multiOfOperand?_eq_none.2 hbad)⟩⟩
  cases hm : multiOfOperand? a with
  | none =>
    obtain hzero | hwide := multiOfOperand?_eq_none.1 hm
    · exact absurd hzero (Nat.ne_of_gt hpos)
    · exact absurd hlt (Nat.not_lt.2 hwide)
  | some m => exact ⟨m, (multiOfOperand?_eq_some.1 hm).2.symm, exec_setMulti_some hf hm⟩

/-! ### What a configuration command leaves -/

/-- R127: a configuration command writes configuration registers alone, and answers. -/
theorem exec_of_configurationCommand {i : Instr} {s t : State} (hi : configurationCommand i = true)
    (h : exec i s = .next t) :
    ∃ m w u st rs, t = answered { s with mode := m, pwidth := w, multi := u } st rs := by
  obtain ⟨st, rs, rfl, -⟩ | ⟨a, m, -, rfl⟩ | ⟨a, w, -, rfl⟩ | ⟨a, u, -, rfl⟩ | ⟨rfl, -⟩ |
    ⟨a, b, c, d, e, x, rfl, -⟩ | ⟨a, rfl, -⟩ | ⟨a, rfl, -⟩ | ⟨rfl, -⟩ | ⟨rfl, -⟩ := exec_effects h
  · exact ⟨s.mode, s.pwidth, s.multi, st, rs, rfl⟩
  · exact ⟨m, s.pwidth, s.multi, .ok, [], rfl⟩
  · exact ⟨s.mode, w, s.multi, .ok, [], rfl⟩
  · exact ⟨s.mode, s.pwidth, u, .ok, [], rfl⟩
  all_goals cases hi

/-- Settles O21, by `exec_of_configurationCommand`. -/
theorem configurationCommandsKeepStorageAndStreams : Obligations.ConfigurationCommandsKeepStorageAndStreams := by
  intro i s t hi h
  obtain ⟨m, w, u, st, rs, rfl⟩ := exec_of_configurationCommand hi h
  exact ⟨rfl, rfl, rfl, rfl, rfl⟩

/-! ### The registers as result words -/

theorem modeWord_toNat (m : Mode) : (modeWord m).toNat = (modeCode m).toNat :=
  BitVec.toNat_setWidth_of_le (by decide)

theorem pwidthWord_toNat (w : PowerWidth) : (pwidthWord w).toNat = (pwidthCode w).toNat :=
  BitVec.toNat_setWidth_of_le (by decide)

theorem multiWord_toNat (u : BitVec 32) : (multiWord u).toNat = u.toNat :=
  BitVec.toNat_setWidth_of_le (by decide)

/-- R21: the reserved encodings 5 to 7 are no mode's. -/
theorem modeCode_toNat_le (m : Mode) : (modeCode m).toNat ≤ 4 := by
  cases m <;> decide

/-- R22: the reserved encodings 0 and 3 are no power width's. -/
theorem pwidthCode_toNat_eq (w : PowerWidth) : (pwidthCode w).toNat = 1 ∨ (pwidthCode w).toNat = 2 := by
  cases w <;> decide

/-- R23: the invariant's bound on `MULTI`. -/
theorem Inv.one_le_multi {s : State} (hs : Inv s) : 1 ≤ s.multi.toNat := by
  obtain ⟨hm, -, -⟩ := hs
  exact Nat.pos_of_ne_zero (BitVec.toNat_ne.1 hm)

/-- Settles O16: the result words by `modeWord_toNat`, `pwidthWord_toNat` and `multiWord_toNat`. -/
theorem configurationReadsAnswerTheRegister : Obligations.ConfigurationReadsAnswerTheRegister := by
  refine ⟨spelledBy_of_decodeOpcode (o := 0x01) (by decide) rfl, spelledBy_of_decodeOpcode (o := 0x03) (by decide) rfl,
    spelledBy_of_decodeOpcode (o := 0x05) (by decide) rfl, fun s hf =>
    ⟨⟨modeWord s.mode, exec_getMode hf, ?_⟩, ⟨pwidthWord s.pwidth, exec_getPwidth hf, ?_⟩,
      ⟨multiWord s.multi, exec_getMulti hf, ?_⟩⟩⟩
  · rw [modeWord_toNat]
    exact ⟨rfl, modeCode_toNat_le s.mode⟩
  · rw [pwidthWord_toNat]
    exact ⟨rfl, pwidthCode_toNat_eq s.pwidth⟩
  · rw [multiWord_toNat]
    exact ⟨rfl, Nat.le_pred_of_lt s.multi.isLt, Inv.one_le_multi⟩

end Sys2Proof.Machine
end

section
/-! PROOFS. The codec commands (R140 to R153): the encoders' and decoders' results, the two deltas as advances of counters
that wrap, what quantization keeps of a sample, and that `MODE` plays no part. -/

namespace Sys2Proof.Machine

/-! ### The encoders -/

/-- R140, R142: a sample has no record exactly when no known code has its rate. -/
theorem encodeNormal?_eq_none {s : State} {time bytes qlen rate : Word} :
    encodeNormal? s time bytes qlen rate = none ↔ ∀ c : BitVec 3, c.toNat ≤ 4 → rateOf c ≠ rate := by
  rw [encodeNormal?, Option.map_eq_none_iff, codeOf_eq_none]

/-- Settles O24: the record is the packing of the quantized fields. -/
theorem encNormalAnswersTheQuantizedRecord : Obligations.EncNormalAnswersTheQuantizedRecord := by
  refine ⟨fun _ _ _ _ => spelledBy_of_decodeOpcode (o := 0x10) (by decide) rfl, fun s a b c d hf =>
    ⟨fun k hk hd => ?_, fun hno => exec_encNormal_none hf (encodeNormal?_eq_none.2 hno)⟩⟩
  have hrec := isRecordOf_iff.2 (rfl : pack s.params.hopLayout (qTime a) (qBytes s.multi b) (qQlen s.multi c) k = _)
  exact ⟨_, hrec, exec_encNormal_some hf (encodeNormal?_eq_some.2 ⟨k, hk, hd, hrec⟩)⟩

/-- Settles O25: both commands answer their operand. -/
theorem portCodecIsVerbatim : Obligations.PortCodecIsVerbatim :=
  ⟨fun _ => spelledBy_of_decodeOpcode (o := 0x11) (by decide) rfl,
    fun _ => spelledBy_of_decodeOpcode (o := 0x16) (by decide) rfl,
    fun _ a hf => ⟨exec_encPort hf a, exec_decPort hf a⟩⟩

/-! ### The decoders -/

/-- Settles O26: scaling a field stays below 2^64, so each result is exact. -/
theorem decodersInvertEachField : Obligations.DecodersInvertEachField :=
  ⟨fun _ => spelledBy_of_decodeOpcode (o := 0x12) (by decide) rfl,
    fun _ => spelledBy_of_decodeOpcode (o := 0x13) (by decide) rfl,
    fun _ => spelledBy_of_decodeOpcode (o := 0x14) (by decide) rfl,
    fun _ => spelledBy_of_decodeOpcode (o := 0x15) (by decide) rfl,
    fun _ a hf =>
      ⟨⟨_, exec_decTime hf a, BitVec.toNat_setWidth_of_le (by decide)⟩,
        ⟨_, exec_decBytes hf a, scaleBytes_toNat _ _ (BitVec.isLt _)⟩,
        ⟨_, exec_decQlen hf a, scaleQlen_toNat _ _ (BitVec.isLt _)⟩, exec_decRate hf a⟩⟩

/-! ### Advances of a counter that wraps -/

theorem wrapDelta_of_le {width a b : Nat} (h : b ≤ a) : wrapDelta width a b = a - b := if_pos h

theorem wrapDelta_of_lt {width a b : Nat} (h : a < b) : wrapDelta width a b = a + 2 ^ width - b :=
  if_neg (Nat.not_le.2 h)

/-- R149, R150: the earlier value plus the advance is the later value, modulo `2^width`. -/
theorem add_wrapDelta_mod {width a b : Nat} (ha : a < 2 ^ width) (hb : b < 2 ^ width) :
    (b + wrapDelta width a b) % 2 ^ width = a := by
  obtain h | h := Nat.lt_or_ge a b
  · rw [wrapDelta_of_lt h, Nat.add_sub_cancel' (by omega), Nat.add_mod_right, Nat.mod_eq_of_lt ha]
  · rw [wrapDelta_of_le h, Nat.add_sub_cancel' h, Nat.mod_eq_of_lt ha]

/-- R149: the advance from `a` to `b` and the one from `b` to `a` together are 0 modulo `2^width`. -/
theorem wrapDelta_swap {width a b : Nat} (ha : a < 2 ^ width) (hb : b < 2 ^ width) :
    wrapDelta width b a = (2 ^ width - wrapDelta width a b) % 2 ^ width := by
  obtain h | rfl | h := Nat.lt_trichotomy a b
  · rw [wrapDelta_of_le h.le, wrapDelta_of_lt h, Nat.mod_eq_of_lt (by omega)]
    omega
  · rw [wrapDelta_of_le le_rfl, Nat.sub_self, Nat.sub_zero, Nat.mod_self]
  · rw [wrapDelta_of_lt h, wrapDelta_of_le h.le, Nat.mod_eq_of_lt (by omega)]
    omega

/-- Settles O27: the answer is the advance of the bytes field in units, and scaling is exact below 2^20 units. -/
theorem bytesDeltaIsModuloTwoToTheTwenty : Obligations.BytesDeltaIsModuloTwoToTheTwenty := by
  refine ⟨fun _ _ => spelledBy_of_decodeOpcode (o := 0x17) (by decide) rfl, ?_⟩
  rintro s a b _ _ hf rfl rfl
  have ha := (fBytes s.params.hopLayout a).isLt
  have hb := (fBytes s.params.hopLayout b).isLt
  have hab := wrapDelta_lt ha hb
  have hw := scaleBytes_toNat s.multi _ hab
  refine ⟨_, _, exec_bytesDelta hf a b, exec_bytesDelta hf b a, fun hle => ?_, fun hlt => ?_, _, hab,
    add_wrapDelta_mod ha hb, hw, ?_⟩
  · rw [hw, wrapDelta_of_le hle]
  · rw [hw, wrapDelta_of_lt hlt]
  · rw [scaleBytes_toNat _ _ (wrapDelta_lt hb ha), wrapDelta_swap ha hb]

/-- R150: an advance modulo 2^24 is its own result word. -/
theorem ofNat_wrapDelta_toNat (a b : BitVec 24) :
    (BitVec.ofNat 64 (wrapDelta 24 a.toNat b.toNat)).toNat = wrapDelta 24 a.toNat b.toNat := by
  have hlt := wrapDelta_lt a.isLt b.isLt
  rw [BitVec.toNat_ofNat]
  omega

/-- Settles O28: the answer is the advance of the time field. -/
theorem timeDeltaIsModuloTwoToTheTwentyFour : Obligations.TimeDeltaIsModuloTwoToTheTwentyFour := by
  refine ⟨fun _ _ => spelledBy_of_decodeOpcode (o := 0x18) (by decide) rfl, ?_⟩
  rintro s a b _ _ hf rfl rfl
  refine ⟨_, exec_timeDelta hf a b, ?_⟩
  rw [ofNat_wrapDelta_toNat]
  exact ⟨wrapDelta_of_le, wrapDelta_of_lt, wrapDelta_lt (BitVec.isLt _) (BitVec.isLt _),
    add_wrapDelta_mod (BitVec.isLt _) (BitVec.isLt _)⟩

/-! ### Bounds of the results -/

theorem scaleBytes_lt (m : BitVec 32) {units : Nat} (h : units < 2 ^ 20) : (scaleBytes m units).toNat < 2 ^ 59 := by
  rw [scaleBytes_toNat m units h]
  calc units * 128 * m.toNat < 2 ^ 20 * 128 * 2 ^ 32 :=
        Nat.mul_lt_mul'' (Nat.mul_lt_mul_of_pos_right h (by decide)) m.isLt
    _ = 2 ^ 59 := by norm_num

theorem scaleQlen_lt (m : BitVec 32) {units : Nat} (h : units < 2 ^ 17) : (scaleQlen m units).toNat < 2 ^ 56 := by
  rw [scaleQlen_toNat m units h]
  calc units * 80 * m.toNat < 2 ^ 17 * 80 * 2 ^ 32 :=
        Nat.mul_lt_mul'' (Nat.mul_lt_mul_of_pos_right h (by decide)) m.isLt
    _ < 2 ^ 56 := by norm_num

/-- R24: the largest rate of the table. -/
theorem rateOf_toNat_le (c : BitVec 3) : (rateOf c).toNat ≤ 4 * 10 ^ 11 := by
  revert c
  decide

/-- A state and the one after a command tell the command's response. -/
theorem next_answered_inj {s : State} {st st' : Status} {rs rs' : List Word} :
    (Host.Outcome.next (answered s st rs) : Host.Outcome State Fault Refusal) = .next (answered s st' rs') ↔
      st = st' ∧ rs = rs' := by
  simp [answered]

/-- A command has one result word at most to answer with from a state. -/
theorem result_unique {i : Instr} {s : State} {v w : Word} (hv : exec i s = .next (answered s .ok [v]))
    (hw : exec i s = .next (answered s .ok [w])) : v = w := by
  rw [hv, next_answered_inj, List.singleton_inj] at hw
  exact hw.2

/-! ### Decoding an encoded sample -/

/-- R142: the result word of a successful ENC_NORMAL is the sample's record. -/
theorem encodeNormal?_of_exec {s : State} {a b c d x : Word} (hf : s.fault = none)
    (h : exec (.encNormal a b c d) s = .next (answered s .ok [x])) : encodeNormal? s a b c d = some x := by
  cases hx : encodeNormal? s a b c d with
  | none =>
    rw [exec_encNormal_none hf hx, next_answered_inj] at h
    cases h.1
  | some y => rw [result_unique (exec_encNormal_some hf hx) h]

/-- Settles O29: the bounds by the fields' widths, the round trip because the record that is decoded is the sample's, and a
quotient that fits its field is kept. -/
theorem encodeThenDecodeTruncatesToUnits : Obligations.EncodeThenDecodeTruncatesToUnits := by
  constructor
  · rintro s _ i a b w h rfl
    have hf := fault_eq_none_of_exec h
    refine ⟨?_, ?_, ?_, ?_, ?_⟩ <;> rintro rfl
    · rw [← result_unique (exec_decBytes hf a) h]
      exact scaleBytes_lt _ (BitVec.isLt _)
    · rw [← result_unique (exec_decQlen hf a) h]
      exact scaleQlen_lt _ (BitVec.isLt _)
    · rw [← result_unique (exec_bytesDelta hf a b) h]
      exact scaleBytes_lt _ (wrapDelta_lt (BitVec.isLt _) (BitVec.isLt _))
    · rw [← result_unique (exec_timeDelta hf a b) h, ofNat_wrapDelta_toNat]
      exact wrapDelta_lt (BitVec.isLt _) (BitVec.isLt _)
    · rw [← result_unique (exec_decRate hf a) h]
      exact rateOf_toNat_le _
  · rintro s t b q r x _ hf rfl h
    obtain ⟨c, -, rfl, htime, hbytes, hqlen, rfl⟩ := encodeNormal?_eq_some.1 (encodeNormal?_of_exec hf h)
    refine ⟨fun hb => ⟨_, exec_decBytes hf x, ?_⟩, fun hq => ⟨_, exec_decQlen hf x, ?_⟩,
      ⟨_, exec_decTime hf x, ?_⟩, exec_decRate hf x⟩
    · rw [scaleBytes_toNat _ _ (BitVec.isLt _), hbytes, Nat.mod_eq_of_lt hb, Nat.mul_assoc]
    · rw [scaleQlen_toNat _ _ (BitVec.isLt _), hqlen, Nat.mod_eq_of_lt hq, Nat.mul_assoc]
    · rw [BitVec.toNat_setWidth_of_le (by decide), htime]

/-! ### The mode -/

theorem encodeNormal?_congr {s u : State} (hp : u.params = s.params) (hm : u.multi = s.multi)
    (time bytes qlen rate : Word) : encodeNormal? u time bytes qlen rate = encodeNormal? s time bytes qlen rate := by
  rw [encodeNormal?, encodeNormal?, hp, hm]

/-- R153: of the state, the layout and `MULTI` alone decide a codec command's response, and the response is all it leaves. -/
theorem exec_codec_congr {i : Instr} {s u : State} (hi : codecCommand i = true) (hf : s.fault = none)
    (hg : u.fault = none) (hp : u.params = s.params) (hm : u.multi = s.multi) :
    ∃ st rs, exec i s = .next (answered s st rs) ∧ exec i u = .next (answered u st rs) := by
  cases i with
  | encNormal a b c d =>
    cases hx : encodeNormal? s a b c d with
    | some x =>
      exact ⟨_, _, exec_encNormal_some hf hx, exec_encNormal_some hg ((encodeNormal?_congr hp hm a b c d).trans hx)⟩
    | none =>
      exact ⟨_, _, exec_encNormal_none hf hx, exec_encNormal_none hg ((encodeNormal?_congr hp hm a b c d).trans hx)⟩
  | encPort a => exact ⟨_, _, exec_encPort hf a, exec_encPort hg a⟩
  | decTime a => exact ⟨_, _, exec_decTime hf a, hp ▸ exec_decTime hg a⟩
  | decBytes a => exact ⟨_, _, exec_decBytes hf a, hp ▸ hm ▸ exec_decBytes hg a⟩
  | decQlen a => exact ⟨_, _, exec_decQlen hf a, hp ▸ hm ▸ exec_decQlen hg a⟩
  | decRate a => exact ⟨_, _, exec_decRate hf a, hp ▸ exec_decRate hg a⟩
  | decPort a => exact ⟨_, _, exec_decPort hf a, exec_decPort hg a⟩
  | bytesDelta a b => exact ⟨_, _, exec_bytesDelta hf a b, hp ▸ hm ▸ exec_bytesDelta hg a b⟩
  | timeDelta a b => exact ⟨_, _, exec_timeDelta hf a b, hp ▸ exec_timeDelta hg a b⟩
  | _ => cases hi

/-- Settles O30: states that differ in `MODE` alone agree in the layout and `MULTI`. -/
theorem codecCommandsIgnoreTheMode : Obligations.CodecCommandsIgnoreTheMode := by
  intro i s t m hi h
  have hf := fault_eq_none_of_exec h
  obtain ⟨st, rs, hs, hu⟩ := exec_codec_congr (u := { s with mode := m }) hi hf hf rfl rfl
  rw [hs] at h
  cases h
  exact hu

end Sys2Proof.Machine
end

section
/-! PROOFS. The header and ring commands (R170 to R174): what they answer and write, the ring law (R179) with `NHOP`'s wrap
(R180), both read off what a successful push writes. -/

namespace Sys2Proof.Machine

/-! ### A successful push -/

/-- R172: the state that a successful push leaves. -/
theorem Pushes.next_eq {s t : State} {i : Instr} {x : Word} (hp : Pushes s i x) (h : exec i s = .next t) :
    t = answered (pushSlot s x) .ok [] := by
  rw [exec_of_pushes hp (fault_eq_none_of_exec h)] at h
  exact (Host.Outcome.next.inj h).symm

/-- R172: a successful push writes its record to the slot at `NHOP mod 5` and no other. -/
theorem Pushes.slots_getElem {s t : State} {i : Instr} {x : Word} (hp : Pushes s i x) (h : exec i s = .next t)
    (j : Fin 5) : t.slots[j] = if j.val = s.nhop.toNat % 5 then x else s.slots[j] := by
  rw [hp.next_eq h, answered_slots, pushSlot_getElem]

/-- R172, R180: a successful push with `NHOP` a multiple of 5 writes slot 0 and no other. -/
theorem Pushes.slots_of_nhop_mod_five_eq_zero {s t : State} {i : Instr} {x : Word} (hp : Pushes s i x)
    (h : exec i s = .next t) (h5 : s.nhop.toNat % 5 = 0) :
    t.slots[0] = x ∧ ∀ j : Fin 5, j ≠ 0 → t.slots[j] = s.slots[j] := by
  have hj := hp.slots_getElem h
  rw [h5] at hj
  exact ⟨hj 0, fun j hne => (hj j).trans (if_neg (Fin.val_ne_of_ne hne))⟩

/-- R172: a successful push increments `NHOP`. -/
theorem Pushes.nhop_eq {s t : State} {i : Instr} {x : Word} (hp : Pushes s i x) (h : exec i s = .next t) :
    t.nhop = s.nhop + 1 := by
  rw [hp.next_eq h, answered_nhop, pushSlot_nhop]

/-- R172: a successful push writes one slot and `NHOP`, and nothing else. -/
theorem Pushes.exec_eq {s : State} {i : Instr} {x : Word} (hp : Pushes s i x) (hf : s.fault = none) :
    ∃ v : Vector Word 5, (∀ j : Fin 5, v[j] = if j.val = s.nhop.toNat % 5 then x else s.slots[j]) ∧
      exec i s = .next (answered { s with slots := v, nhop := BitVec.ofNat 16 (s.nhop.toNat + 1) } .ok []) := by
  refine ⟨(pushSlot s x).slots, pushSlot_getElem s x, ?_⟩
  rw [exec_of_pushes hp hf, BitVec.ofNat_add, BitVec.ofNat_toNat, BitVec.setWidth_eq]
  rfl

/-! ### The ring law -/

/-- R179: a slot that no push has reached still holds 0. -/
theorem PushRun.slot_of_unreached {s t : State} {xs : List Word} (hs : FreshHeader s) (h : PushRun s xs t)
    {j : Fin 5} (hj : xs.length ≤ j.val) : t.slots[j] = 0 := by
  induction h with
  | start => exact hs.1 j
  | @push xs t i x u h hp he ih =>
    rw [List.length_append, List.length_singleton] at hj
    have hnhop : t.nhop.toNat % 5 < j.val :=
      calc t.nhop.toNat % 5 ≤ t.nhop.toNat := Nat.mod_le _ _
        _ = xs.length % 2 ^ 16 := h.nhop_toNat hs
        _ ≤ xs.length := Nat.mod_le _ _
        _ < j.val := hj
    rw [hp.slots_getElem he, if_neg hnhop.ne', ih (Nat.le_of_succ_le hj)]
  | other _ hn hc hd ht hp he ih =>
    rw [(exec_keeps_storage hn hc hd ht hp he).1]
    exact ih hj

/-- Settles O37. Push `k - 1 - ((k - 1 - i) mod 5)` is the one of the last five whose number agrees with `i` modulo 5. -/
theorem ringHoldsTheLastPushes : Obligations.RingHoldsTheLastPushes := by
  intro s t xs hs h
  refine ⟨h.nhop_toNat hs, fun i x u hp he j => ?_, fun hlen j => ⟨fun hj => ?_, h.slot_of_unreached hs⟩⟩
  · rw [hp.slots_getElem he, h.nhop_toNat hs]
  · exact h.slot_of_recent hs hlen (by omega) (by omega) (by omega)

/-- Settles O39: 65535 and 0 are both 0 modulo 5. -/
theorem nhopWrapWritesSlotZeroTwice : Obligations.NhopWrapWritesSlotZeroTwice := by
  intro s t u i k x y hs hx ht hy hu
  have htn : t.nhop = 0 := by
    rw [hx.nhop_eq ht, BitVec.eq_of_toNat_eq (y := 65535#16) hs]
    rfl
  obtain ⟨htx, htj⟩ := hx.slots_of_nhop_mod_five_eq_zero ht (by rw [hs])
  obtain ⟨huy, huj⟩ := hy.slots_of_nhop_mod_five_eq_zero hu (by rw [htn]; rfl)
  exact ⟨htn, by rw [hy.nhop_eq hu, htn]; rfl, htx, huy, fun j hj => ⟨htj j hj, (huj j hj).trans (htj j hj)⟩⟩

/-! ### The header commands -/

/-- Settles O33, by the mode: in Normal mode with a known rate and in PortTrace mode the command is a successful push. -/
theorem pushHopWritesTheSlotAtNhopModFive : Obligations.PushHopWritesTheSlotAtNhopModFive := by
  refine ⟨fun _ _ _ _ _ => spelledBy_of_decodeOpcode (o := 0x22) (by decide) rfl, fun s a b c d e hf =>
    ⟨fun hm k hk hd => ?_, fun hm hno => exec_pushHop_normal_none hf hm (encodeNormal?_eq_none.2 hno),
      fun hm => ?_, exec_pushHop_other hf⟩⟩
  · obtain ⟨x, hrec⟩ : ∃ x, IsRecordOf s a b c k x := ⟨_, isRecordOf_iff.2 rfl⟩
    have hp : Pushes s (.pushHop a b c d e) x := ⟨a, b, c, d, e, rfl, .inr ⟨hm, k, hk, hd, hrec⟩⟩
    obtain ⟨v, hv, he⟩ := hp.exec_eq hf
    exact ⟨x, v, hrec, hv, he⟩
  · have hp : Pushes s (.pushHop a b c d e) e := ⟨a, b, c, d, e, rfl, .inl ⟨hm, rfl⟩⟩
    exact hp.exec_eq hf

/-- Settles O31: the command is `clearHeader` in every mode. -/
theorem hdrClearMakesTheHeaderFresh : Obligations.HdrClearMakesTheHeaderFresh :=
  ⟨spelledBy_of_decodeOpcode (o := 0x20) (by decide) rfl,
    fun _ hf => ⟨Vector.replicate maxHop 0, fun j => Vector.getElem_replicate j.isLt, exec_hdrClear hf⟩⟩

/-- Settles O32: the size fits a result word, and is a number per mode. -/
theorem staticSizeFollowsTheMode : Obligations.StaticSizeFollowsTheMode := by
  refine ⟨spelledBy_of_decodeOpcode (o := 0x21) (by decide) rfl,
    fun s hf => ⟨_, exec_staticSize hf, wireSize_toNat s, ?_⟩⟩
  rw [wireSize]
  cases s.mode <;> rfl

/-- R89, R174: the command word of READ_SLOT carries the slot index from bit 8 on. -/
theorem commandWord_readSlot (k : BitVec 3) : commandWord k 0x24 = BitVec.ofNat 32 (0x24 + k.toNat * 0x100) := by
  revert k
  decide

/-- Settles O34: READ_SLOT answers or refuses by whether its index is below 5. -/
theorem nhopAndSlotsAreReadInEveryMode : Obligations.NhopAndSlotsAreReadInEveryMode := by
  refine ⟨spelledBy_of_decodeOpcode (o := 0x23) (by decide) rfl,
    fun k => commandWord_readSlot k ▸ decode_encode (.readSlot k),
    fun s hf => ⟨⟨_, exec_getNhop hf, ?_⟩, fun k j hk => ?_, fun k => exec_readSlot_ge hf⟩⟩
  · exact BitVec.toNat_setWidth_of_le (by decide)
  · have hlt : slotIndex k < maxHop := hk.trans_lt j.isLt
    rw [exec_readSlot_lt hf hlt]
    simp only [slotIndex, hk, Fin.getElem_fin]

end Sys2Proof.Machine
end

section
/-! PROOFS. The wire image (R200 to R208): SERIALIZE appends it, DESERIALIZE loads it and keeps every other bit of the
storage, and two states with the same image have the same payload, which is the round trip. -/

namespace Sys2Proof.Machine

/-! ### Bytes of a value in a byte sequence -/

theorem hasByte_append_right (u w : List Byte) (v k : Nat) : HasByte (u ++ w) u.length v k ↔ HasByte w 0 v k := by
  rw [HasByte, HasByte, List.getElem?_append_right (Nat.le_add_right _ _), Nat.add_sub_cancel_left, Nat.zero_add]

theorem hasByte_append_left {w rest : List Byte} {offset v k : Nat} (h : offset + k < w.length) :
    HasByte (w ++ rest) offset v k ↔ HasByte w offset v k := by
  rw [HasByte, HasByte, List.getElem?_append_left h]

theorem hasByte_leBytes {n k : Nat} (v : Nat) (hk : k < n) : HasByte (leBytes n v) 0 v k := by
  rw [HasByte, Nat.zero_add, leBytes_getElem?, if_pos hk]

/-- A byte sequence holds the low bytes of every number that is its value modulo its width. -/
theorem hasByte_of_mod_eq {w : List Byte} {x k : Nat} (h : x % 256 ^ w.length = leValue w) (hk : k < w.length) :
    HasByte w 0 x k := by
  have hw : leBytes w.length x = w := by rw [← leBytes_mod, h, leBytes_leValue]
  exact hw ▸ hasByte_leBytes x hk

theorem two_pow_eight_mul (n : Nat) : 2 ^ (8 * n) = 256 ^ n := Nat.pow_mul 2 8 n

/-- A word is known by its bytes. -/
theorem eq_of_hasByte {w : List Byte} {offset n : Nat} {x y : BitVec (8 * n)}
    (hx : ∀ k < n, HasByte w offset x.toNat k) (hy : ∀ k < n, HasByte w offset y.toNat k) : x = y := by
  have h := mod_eq_of_hasByte hx hy
  rw [← two_pow_eight_mul, Nat.mod_eq_of_lt x.isLt, Nat.mod_eq_of_lt y.isLt] at h
  exact BitVec.eq_of_toNat_eq h

/-- The value of at most eight bytes fits a word. -/
theorem ofNat_leValue_toNat_of_le {w : List Byte} (h : w.length ≤ 8) :
    (BitVec.ofNat 64 (leValue w)).toNat = leValue w := by
  have hlt : leValue w < 2 ^ 64 :=
    calc leValue w < 256 ^ w.length := leValue_lt w
      _ ≤ 256 ^ 8 := Nat.pow_le_pow_right (by decide) h
  rw [BitVec.toNat_ofNat, Nat.mod_eq_of_lt hlt]

/-! ### The power view, by bytes -/

theorem withPowerBits_mod (w : PowerWidth) (x v : Word) :
    (withPowerBits w x v).toNat % 256 ^ (pwidthCode w).toNat = v.toNat % 256 ^ (pwidthCode w).toNat := by
  rw [withPowerBits_toNat, two_pow_eight_mul, Nat.mul_add_mod', Nat.mod_mod]

theorem withPowerBits_div (w : PowerWidth) (x v : Word) :
    (withPowerBits w x v).toNat / 256 ^ (pwidthCode w).toNat = x.toNat / 256 ^ (pwidthCode w).toNat := by
  have hpos : 0 < 256 ^ (pwidthCode w).toNat := Nat.pow_pos (by decide)
  rw [withPowerBits_toNat, two_pow_eight_mul, Nat.mul_comm, Nat.mul_add_div hpos,
    Nat.div_eq_of_lt (Nat.mod_lt _ hpos), Nat.add_zero]

/-! ### The wire image -/

theorem IsWireImage.length_eq {s : State} {w : List Byte} (h : IsWireImage s w) : w.length = wireSize s := by
  unfold IsWireImage at h
  unfold wireSize
  cases hm : s.mode <;> rw [hm] at h
  case disabled => rw [h]; rfl
  all_goals exact h.1

/-- R204: what SERIALIZE appends is the wire image. -/
theorem isWireImage_writeHeader (s : State) : IsWireImage s (writeHeader s []) := by
  rw [writeHeader_eq, List.nil_append]
  unfold IsWireImage
  cases s.mode with
  | normal | portTrace =>
    have hlen : (slotBytes s.slots.toList).length = 40 := by rw [slotBytes_length, Vector.length_toList]; rfl
    have hnhop : ∀ k < 2, HasByte (slotBytes s.slots.toList ++ leBytes 2 s.nhop.toNat) 40 s.nhop.toNat k :=
      fun k hk => hlen ▸ (hasByte_append_right _ _ _ _).2 (hasByte_leBytes _ hk)
    refine ⟨?_, fun j k hk => ?_, hnhop 0 (by decide), hnhop 1 (by decide)⟩
    · rw [List.length_append, hlen, leBytes_length]
    · exact slotBytes_getElem? s.slots.toList j k (by rw [Vector.length_toList]; exact j.isLt) hk _
  | timestamp => exact ⟨leBytes_length _ _, fun k => hasByte_leBytes _⟩
  | compressedPower => exact ⟨leBytes_length _ _, fun k => hasByte_leBytes _⟩
  | disabled => rfl

/-- R205: a slot is read from the eight bytes at the front of a queue. -/
theorem readSlotFrom_drop {q : List Byte} {n : Nat} (h : n + 8 ≤ q.length) :
    readSlotFrom (q.drop n) = (BitVec.ofNat 64 (leValue ((q.drop n).take 8)), q.drop (n + 8)) := by
  have hlen : ((q.drop n).take 8).length = 8 := by
    rw [List.length_take_of_le]
    rw [List.length_drop]
    omega
  have hread := readSlotFrom_append _ ((q.drop n).drop 8) hlen
  rwa [List.take_append_drop, List.drop_drop] at hread

/-- R205: in a mode with a ring, `SLOT[j]` is the value of the eight bytes of `INQ` from offset `8 j` on. -/
theorem readRing_slots_toNat {s : State} (h : 42 ≤ s.inq.length) (j : Fin 5) :
    (readRing s).slots[j].toNat = leValue ((s.inq.drop (8 * j)).take 8) := by
  rw [readRing_of (readSlotFrom_drop (n := 0) (by omega)) (readSlotFrom_drop (n := 8) (by omega))
    (readSlotFrom_drop (n := 16) (by omega)) (readSlotFrom_drop (n := 24) (by omega))
    (readSlotFrom_drop (n := 32) (by omega)) rfl]
  fin_cases j <;> exact ofNat_leValue_toNat_of_le (List.length_take_le _ _)

/-- R205: the storage that DESERIALIZE loads has the bytes it consumes as its wire image. -/
theorem isWireImage_readHeader {s : State} {w rest : List Byte} (hq : s.inq = w ++ rest)
    (hw : w.length = wireSize s) : IsWireImage (readHeader s) w := by
  cases hm : s.mode with
  | normal | portTrace =>
    have hring : s.mode = .normal ∨ s.mode = .portTrace := by simp [hm]
    rw [wireSize_ring hring] at hw
    have hlen : 42 ≤ s.inq.length := by rw [hq, List.length_append, hw]; exact Nat.le_add_right _ _
    have hnhop : ∀ k < 2, HasByte w 40 (readRing s).nhop.toNat k := by
      intro k hk
      rw [readRing_nhop_toNat, ← hasByte_append_left (rest := rest) (by omega), ← hq]
      exact hasByte_leValue (by omega) hk
    have hslots : ∀ j : Fin 5, ∀ k < 8, HasByte w (8 * j) (readRing s).slots[j].toNat k := by
      intro j k hk
      rw [readRing_slots_toNat hlen, ← hasByte_append_left (rest := rest) (by omega), ← hq]
      exact hasByte_leValue (by omega) hk
    rw [readHeader_ring hring, IsWireImage, show (readRing s).mode = s.mode from rfl, hm]
    exact ⟨hw, hslots, hnhop 0 (by decide), hnhop 1 (by decide)⟩
  | timestamp =>
    replace hw : w.length = 8 := by rw [hw, wireSize, hm]
    have hread : inRead 8 s.inq = (leValue w, rest) := by rw [hq, ← hw, inRead_append]
    rw [readHeader_timestamp hm, hread, IsWireImage, setTimestamp_mode, hm]
    refine ⟨hw, fun k hk => hasByte_of_mod_eq ?_ (hw ▸ hk)⟩
    rw [setTimestamp_slots, Vector.getElem_set_self, ofNat_leValue_toNat_of_le hw.le,
      Nat.mod_eq_of_lt (leValue_lt w)]
  | compressedPower =>
    replace hw : w.length = (pwidthCode s.pwidth).toNat := by rw [hw, wireSize, hm]
    have hread : inRead (pwidthCode s.pwidth).toNat s.inq = (leValue w, rest) := by rw [hq, ← hw, inRead_append]
    have hle : w.length ≤ 8 := by rw [hw]; cases s.pwidth <;> decide
    rw [readHeader_compressedPower hm, hread, IsWireImage, setPowerValue_mode, hm]
    refine ⟨hw, fun k hk => hasByte_of_mod_eq ?_ (hw ▸ hk)⟩
    rw [setPowerValue_slots, Vector.getElem_set_self, hw, withPowerBits_mod, ofNat_leValue_toNat_of_le hle, ← hw,
      Nat.mod_eq_of_lt (leValue_lt w)]
  | disabled =>
    replace hw : w = [] := List.eq_nil_of_length_eq_zero (by rw [hw, wireSize, hm])
    rw [readHeader_disabled hm, IsWireImage, hm]
    exact hw

/-- R205: DESERIALIZE loads the active payload and nothing else of the storage. -/
theorem sameOutsidePayload_readHeader (s : State) : SameOutsidePayload s (readHeader s) := by
  unfold SameOutsidePayload
  cases hm : s.mode with
  | normal | portTrace => trivial
  | timestamp =>
    rw [readHeader_timestamp hm]
    exact ⟨rfl, fun j => slots_set_zero_of_ne _ _⟩
  | compressedPower =>
    rw [readHeader_compressedPower hm]
    refine ⟨rfl, fun j => slots_set_zero_of_ne _ _, ?_⟩
    rw [setPowerValue_slots, Vector.getElem_set_self, withPowerBits_div]
  | disabled =>
    rw [readHeader_disabled hm]
    exact ⟨rfl, rfl⟩

/-- R207: under one mode and power width, the wire image determines the payload. -/
theorem IsWireImage.samePayload {s t : State} {w : List Byte} (hs : IsWireImage s w) (ht : IsWireImage t w)
    (hm : t.mode = s.mode) (hp : t.pwidth = s.pwidth) : SamePayload s t := by
  unfold IsWireImage at hs ht
  rw [hm, hp] at ht
  unfold SamePayload
  cases hmode : s.mode <;> rw [hmode] at hs ht
  case normal | portTrace =>
    obtain ⟨-, hslots, hlow, hhigh⟩ := hs
    obtain ⟨-, hslots', hlow', hhigh'⟩ := ht
    refine ⟨Vector.ext fun j hj => eq_of_hasByte (n := 8) (hslots' ⟨j, hj⟩) (hslots ⟨j, hj⟩),
      eq_of_hasByte (n := 2) (w := w) (offset := 40) (fun k hk => ?_) (fun k hk => ?_)⟩ <;> interval_cases k
    · exact hlow'
    · exact hhigh'
    · exact hlow
    · exact hhigh
  case timestamp => exact eq_of_hasByte (n := 8) ht.2 hs.2
  case compressedPower => exact mod_eq_of_hasByte ht.2 hs.2
  case disabled => trivial

/-! ### The two commands -/

/-- R205: DESERIALIZE of a long enough `INQ`, with what it writes and what it leaves. -/
theorem exec_deserialize_append {s : State} {w rest : List Byte} (hf : s.fault = none) (hq : s.inq = w ++ rest)
    (hw : w.length = wireSize s) :
    exec .deserialize s =
      .next (answered { s with slots := (readHeader s).slots, nhop := (readHeader s).nhop, inq := rest } .ok
        [BitVec.ofNat 64 (wireSize s)]) := by
  have hle : wireSize s ≤ s.inq.length := by rw [hq, List.length_append, hw]; exact Nat.le_add_right _ _
  have hinq : (readHeader s).inq = rest := by rw [readHeader_inq, hq, ← hw, List.drop_left]
  rw [exec_deserialize_ge hf hle, readHeader_frame, hinq]

/-- Settles O40, by `isWireImage_writeHeader`. -/
theorem serializeAppendsTheWireImage : Obligations.SerializeAppendsTheWireImage := by
  refine ⟨spelledBy_of_decodeOpcode (o := 0x30) (by decide) rfl, fun s hf => ?_⟩
  have himage := isWireImage_writeHeader s
  refine ⟨_, BitVec.ofNat 64 (wireSize s), himage, ?_, ?_⟩
  · rw [wireSize_toNat, himage.length_eq]
  · rw [exec_serialize hf, writeHeader_eq_append]

/-- Settles O41: what DESERIALIZE writes has `w` as its image and keeps the bits outside the payload. -/
theorem deserializeLoadsTheWireImage : Obligations.DeserializeLoadsTheWireImage := by
  refine ⟨spelledBy_of_decodeOpcode (o := 0x31) (by decide) rfl, fun s hf =>
    ⟨fun w rest hq hw => ?_, exec_deserialize_lt hf⟩⟩
  have himage := isWireImage_readHeader hq hw
  have hout := sameOutsidePayload_readHeader s
  rw [readHeader_frame] at himage hout
  exact ⟨_, _, _, himage, hout, by rw [wireSize_toNat, hw], exec_deserialize_append hf hq hw⟩

/-- Settles O42: the bytes are the wire image of `s` and, once loaded, of `t`, so the payloads agree. -/
theorem serializeThenDeserializeRestoresThePayload : Obligations.SerializeThenDeserializeRestoresThePayload := by
  intro s t u w rest _ hf hm hp hu hout hq
  obtain rfl := exec_serialize_next hu
  obtain rfl : writeHeader s [] = w := List.append_cancel_left hout
  have hs := isWireImage_writeHeader s
  have hw : (writeHeader s []).length = wireSize t := by rw [hs.length_eq, wireSize, wireSize, hm, hp]
  have ht := isWireImage_readHeader hq hw
  have houtside := sameOutsidePayload_readHeader t
  rw [readHeader_frame] at ht houtside
  exact ⟨_, _, _, exec_deserialize_append hf hq hw, hs.samePayload ht hm hp, houtside⟩

/-- Settles O43: the wire image has `staticSize()` bytes, and DESERIALIZE compares `INQ` with that number. -/
theorem staticSizeIsTheByteCountMoved : Obligations.StaticSizeIsTheByteCountMoved := by
  refine ⟨fun s t h => ?_, fun s t h => ?_⟩
  · obtain rfl := exec_serialize_next h
    refine ⟨?_, _, rfl, wireSize_toNat s⟩
    rw [answered_outq, List.length_append, (isWireImage_writeHeader s).length_eq]
  · have hf := fault_eq_none_of_exec h
    obtain hlt | hge := Nat.lt_or_ge s.inq.length (wireSize s)
    · rw [exec_deserialize_lt hf hlt] at h
      cases h
      exact .inl ⟨rfl, hlt⟩
    · rw [exec_deserialize_ge hf hge, readHeader_frame] at h
      cases h
      exact .inr ⟨readHeader_inq s, hge, _, rfl, wireSize_toNat s⟩

end Sys2Proof.Machine
end

section
/-! PROOFS. Errors and the fault (R220 to R228): an illegal transaction is only answered, an error status changes nothing
else, an underrun sets `FAULT` alone, and a faulted HRC takes no command. -/

namespace Sys2Proof.Machine

/-! ### Illegal commands -/

/-- R221: while `FAULT` is none, an illegal transaction is answered `ERR_ILLEGAL` and does nothing else. -/
theorem step_of_illegal_of_none {s : State} {c : Command} {rest : List HostAction} (hf : s.fault = none)
    (hh : s.host = .issue c :: rest) (hc : c.legal = false) :
    step s = .next (answered { s with host := rest } .errIllegal []) :=
  (step_of_illegal hh hc).trans (takeCommand_of_none (s := { s with host := rest }) _ hf)

/-- Settles O9: each cause contradicts one of the conditions of `Command.legal_iff`. -/
theorem illegalCommandsAreOnlyAnswered : Obligations.IllegalCommandsAreOnlyAnswered := by
  rintro s c rest o hf hh rfl hcause
  refine step_of_illegal_of_none hf hh ?_
  rw [← Bool.not_eq_true, c.legal_iff]
  rintro ⟨hn, hr, hs⟩
  obtain hopc | hrsvd | ⟨hslot, hread⟩ | hcount := hcause
  · rw [hopc] at hn
    cases hn
  · exact hrsvd hr
  · exact hs.elim hslot hread
  · exact hcount hn

/-! ### The fault -/

/-- Settles O13, by `exec_deserialize_lt`. -/
theorem underrunSetsTheFaultAndNothingElse : Obligations.UnderrunSetsTheFaultAndNothingElse :=
  fun _ hf => exec_deserialize_lt hf

/-- R228: while `FAULT` is set the issue of a transaction has no step, whether it is legal or not. -/
theorem step_of_issue_of_fault {s : State} {f : Fault} {c : Command} {rest : List HostAction}
    (hf : s.fault = some f) (hh : s.host = .issue c :: rest) : step s = .fault f := by
  cases hc : c.legal with
  | false => exact (step_of_illegal hh hc).trans (takeCommand_of_some (s := { s with host := rest }) _ hf)
  | true =>
    obtain ⟨i, hd⟩ := (decode_ok_iff_legal c).2 hc
    exact (step_of_issue hh hd).trans (exec_of_fault i hf)

/-- R228: only a reset leaves the fault state, since an underrun needs `FAULT` none. -/
theorem step_keeps_fault {s t : State} {f : Fault} (hf : s.fault = some f) (h : step s = .next t)
    (hreset : s.host.head? ≠ some .reset) : t.fault = some f := by
  by_contra hne
  rw [← hf] at hne
  obtain ⟨hhead, -⟩ | ⟨hnone, -⟩ := faultChangesOnlyByUnderrunOrReset.1 s t h hne
  · exact hreset hhead
  · rw [hf] at hnone
    cases hnone

theorem stuck_of_fault {s : State} {f : Fault} (hf : s.fault = some f) : stuck s = true := by
  rw [stuck, hf, Option.isSome_some]

theorem endsNormally_of_fault {s : State} {f : Fault} (hf : s.fault = some f) (n : Nat) :
    endsNormally n s = false := by
  rw [← Bool.not_eq_true, endsNormally_iff, hf]
  exact fun h => nomatch h.2

/-- Settles O14, one lemma per clause. -/
theorem faultedMachineTakesNoCommand : Obligations.FaultedMachineTakesNoCommand :=
  fun _ _ hf => ⟨fun _ _ => step_of_issue_of_fault hf, fun _ => step_keeps_fault hf, stuck_of_fault hf,
    endsNormally_of_fault hf⟩

/-! ### Error statuses -/

/-- R86, R220: a command only answers, or it answers `OK` after an effect that leaves the earlier responses, or it gives no
response. -/
theorem exec_response_cases {i : Instr} {s t : State} (h : exec i s = .next t) :
    (∃ st rs, t = answered s st rs ∧ (st ≠ .ok → RaisedBy st i s)) ∨
      (∃ rs, t.responses = s.responses ++ [{ status := .ok, results := rs }]) ∨ t.responses = s.responses := by
  obtain hanswer | ⟨a, m, -, rfl⟩ | ⟨a, w, -, rfl⟩ | ⟨a, m, -, rfl⟩ | ⟨-, rfl⟩ |
    ⟨a, b, c, d, e, x, -, -, rfl⟩ | ⟨a, -, -, rfl⟩ | ⟨a, -, -, rfl⟩ | ⟨-, q, n, rfl⟩ |
    ⟨-, rfl | ⟨v, k, q, n, rfl, -⟩⟩ := exec_effects h
  · exact .inl hanswer
  iterate 8 exact .inr (.inl ⟨_, rfl⟩)
  · exact .inr (.inr rfl)
  · exact .inr (.inl ⟨_, rfl⟩)

/-- R220: a command with an error status only answers, and is one that raises that status. -/
theorem exec_error {i : Instr} {s t : State} {r : Response} (h : exec i s = .next t)
    (hr : t.responses = s.responses ++ [r]) (hne : r.status ≠ .ok) :
    t = answered s r.status r.results ∧ RaisedBy r.status i s := by
  obtain ⟨st, rs, rfl, hraised⟩ | ⟨rs, hok⟩ | hsilent := exec_response_cases h
  · cases List.append_cancel_left hr
    exact ⟨rfl, hraised hne⟩
  · cases List.append_cancel_left (hok.symm.trans hr)
    exact absurd rfl hne
  · exact absurd (List.append_right_eq_self.1 (hr.symm.trans hsilent)) (List.cons_ne_nil r [])

/-- Settles O46: the codes by evaluation, the rest by `exec_error`. -/
theorem errorStatusesChangeNothing : Obligations.ErrorStatusesChangeNothing :=
  ⟨by decide, fun _ _ _ _ => exec_error⟩

end Sys2Proof.Machine
end

section
/-! PROOFS. Reset and the end of a run (R250, R264): what reset leaves, and that along a run `CI` and the commands left
add up to the length of the host's sequence while `FAULT` is none. -/

namespace Sys2Proof.Machine

/-! ### Reset -/

/-- R20, R250: reset puts every register at its reset value, whatever the state before. -/
theorem atResetValues_resetBy (s : State) : AtResetValues (resetBy s) :=
  ⟨rfl, rfl, rfl, fun j => Vector.getElem_replicate j.isLt, rfl, rfl, rfl, rfl, rfl⟩

/-- Settles O12, by `atResetValues_resetBy`: `State.reset` is its own reset. -/
theorem resetPutsEveryRegisterAtItsResetValue : Obligations.ResetPutsEveryRegisterAtItsResetValue :=
  ⟨atResetValues_resetBy State.reset, fun _ _ hh => ⟨_, step_of_reset hh, atResetValues_resetBy _⟩⟩

/-! ### The states of a run -/

section
variable {p : Params} {actions : List HostAction} {s t : State}

/-- R264: while a command of the run is left, the host's next action is no reset. -/
theorem head?_ne_reset_of_commandsToCome {l : List HostAction} (hc : commandsToCome l ≠ 0) :
    l.head? ≠ some .reset := by
  intro hl
  obtain ⟨rest, rfl⟩ := List.head?_eq_some_iff.1 hl
  exact hc (commandsToCome_reset rest)

/-- R228: a step of a run that leaves `FAULT` none found it none, because it serves no reset. -/
theorem fault_eq_none_of_step (hc : commandsToCome s.host ≠ 0) (h : step s = .next t) (ht : t.fault = none) :
    s.fault = none := by
  by_contra hs
  obtain ⟨f, hf⟩ := Option.ne_none_iff_exists'.1 hs
  have hkept := step_keeps_fault hf h (head?_ne_reset_of_commandsToCome hc)
  rw [ht] at hkept
  cases hkept

/-- R33: a step of a run that raises no fault takes from the commands left what it adds to `CI`. -/
theorem step_ci_add_commandsToCome (hc : commandsToCome s.host ≠ 0) (h : step s = .next t) (ht : t.fault = none) :
    t.ci + commandsToCome t.host = s.ci + commandsToCome s.host := by
  have hci := commandIndexCountsCompletedCommands.2 s t h
  obtain ⟨hhost, -⟩ := stepTakesOneActionAndKeepsTheLayout s t h
  rw [hhost]
  rcases hh : s.host with _ | ⟨a, rest⟩ <;> rw [hh] at hc hci
  · exact absurd commandsToCome_nil hc
  cases a with
  | issue c =>
    obtain ⟨-, hnext⟩ | ⟨-, hfault, -⟩ := hci
    · rw [hnext, List.tail_cons, commandsToCome_issue, Nat.add_right_comm, Nat.add_assoc]
    · rw [ht] at hfault
      cases hfault
  | fill bytes => exact congrArg (· + commandsToCome rest) hci
  | drain n => exact congrArg (· + commandsToCome rest) hci
  | reset => exact absurd (commandsToCome_reset rest) hc

/-- R33, R264: while `FAULT` is none, what is completed and what is left make up the host's sequence. -/
theorem InRun.ci_add_commandsToCome (h : InRun p actions s) (hf : s.fault = none) :
    s.ci + commandsToCome s.host = commandsToCome actions := by
  induction h with
  | start => exact Nat.zero_add _
  | goOn _ hc hstep ih => exact (step_ci_add_commandsToCome hc hstep hf).trans (ih (fault_eq_none_of_step hc hstep hf))

/-- R23, R33, R86: every state of a run meets the machine's invariant. -/
theorem InRun.inv (h : InRun p actions s) : Inv s := by
  induction h with
  | start => exact inv_resetBy (runStart p actions)
  | goOn _ _ hstep ih => exact stepKeepsTheInvariant _ _ ih hstep

/-- R264: a state of a run is its normal end when `FAULT` is none and no command is left. -/
theorem InRun.endsNormally_iff_commandsToCome (h : InRun p actions s) :
    endsNormally (commandsToCome actions) s = true ↔ s.fault = none ∧ commandsToCome s.host = 0 := by
  rw [endsNormally_iff, and_comm, and_congr_right_iff]
  intro hf
  have hsum := h.ci_add_commandsToCome hf
  omega

/-- R86, R264: at a normal end the host has one response for each command of its sequence. -/
theorem InRun.responses_length (h : InRun p actions s) (hend : endsNormally (commandsToCome actions) s = true) :
    (observe s).responses.length = commandsToCome actions := by
  obtain ⟨-, hcount, -⟩ := h.inv
  obtain ⟨hci, -⟩ := endsNormally_iff.1 hend
  exact hcount.symm.trans hci

end

/-- Settles O52, one lemma per clause; a faulted state is stuck and no normal end by R228. -/
theorem runEndsNormallyWhenItsCommandsAreCompleted : Obligations.RunEndsNormallyWhenItsCommandsAreCompleted := by
  refine ⟨fun _ _ => step_of_reset, fun p actions s h =>
    ⟨h.ci_add_commandsToCome, h.endsNormally_iff_commandsToCome, h.responses_length, fun hs => ?_⟩⟩
  obtain ⟨f, hf⟩ := Option.ne_none_iff_exists'.1 hs
  exact ⟨stuck_of_fault hf, endsNormally_of_fault hf _⟩

end Sys2Proof.Machine
end
